-- ==== Sys2Proof/Word.lean ====
section
/-! DEFINITION. The word types of the machine (00_scope.md R5, R6): every value is unsigned and bits are numbered
from 0 at the least significant bit. -/

namespace Sys2Proof

/-- An 8-bit value: a general register, a timer, a memory cell (00_scope.md R5 `XLEN`, 20_memory.md R30). -/
abbrev Byte := BitVec 8

/-- A 12-bit address: `I`, `pc`, a call-stack entry, the `nnn` field (00_scope.md R5 `ADDR_BITS`). -/
abbrev Addr := BitVec 12

/-- A 16-bit instruction word (30_encoding.md R50). -/
abbrev OpWord := BitVec 16

/-- A register number 0 to 15 (10_state.md R11); also a key number 0 to 15 (10_state.md R20). -/
abbrev Reg := Fin 16

/-- The register `VF`, which doubles as the flag register (10_state.md R12). -/
abbrev regF : Reg := 15

end Sys2Proof
end

