-- ==== Sys2Proof/Config.lean ====
section
/-! DEFINITION. What 00_scope.md R5 fixes for the hardware, the model parameter `FONT`, and the free value behind the
random byte. -/

namespace Sys2Proof.Config

/-- `MEM_SIZE`: bytes of memory, addresses 0x000 to 0xFFF. -/
abbrev memSize : Nat := 4096

/-- `P_START`: the program start address, the reset value of `pc`. -/
abbrev programStart : Nat := 0x200

/-- `ROM_MAX`: the longest program `loadProgram` accepts, 4096 - 0x200 bytes. -/
abbrev romMax : Nat := memSize - programStart

/-- `STACK_DEPTH`: entries of the call stack. -/
abbrev stackDepth : Nat := 16

/-- `FB_W`: columns of the framebuffer. -/
abbrev fbWidth : Nat := 64

/-- `FB_H`: rows of the framebuffer. -/
abbrev fbHeight : Nat := 32

/-- `FB_W * FB_H`: pixels of the framebuffer. -/
abbrev fbPixels : Nat := 2048

/-- `FONT_BASE`: the address of the first font byte. -/
abbrev fontBase : Nat := 0x000

/-- `GLYPH_LEN`: bytes of one glyph. -/
abbrev glyphLen : Nat := 5

/-- Glyphs `0` to `7` of the default `FONT` (93_implementation_defined.md G1). -/
def fontLow : List Byte :=
  [0xF0, 0x90, 0x90, 0x90, 0xF0] ++ [0x20, 0x60, 0x20, 0x20, 0x70] ++
  [0xF0, 0x10, 0xF0, 0x80, 0xF0] ++ [0xF0, 0x10, 0xF0, 0x10, 0xF0] ++
  [0x90, 0x90, 0xF0, 0x10, 0x10] ++ [0xF0, 0x80, 0xF0, 0x10, 0xF0] ++
  [0xF0, 0x80, 0xF0, 0x90, 0xF0] ++ [0xF0, 0x10, 0x20, 0x40, 0x40]

/-- Glyphs `8` to `F` of the default `FONT` (93_implementation_defined.md G1). -/
def fontHigh : List Byte :=
  [0xF0, 0x90, 0xF0, 0x90, 0xF0] ++ [0xF0, 0x90, 0xF0, 0x10, 0xF0] ++
  [0xF0, 0x90, 0xF0, 0x90, 0x90] ++ [0xE0, 0x90, 0xE0, 0x90, 0xE0] ++
  [0xF0, 0x80, 0x80, 0x80, 0xF0] ++ [0xE0, 0x90, 0x90, 0x90, 0xE0] ++
  [0xF0, 0x80, 0xF0, 0x80, 0xF0] ++ [0xF0, 0x80, 0xF0, 0x80, 0x80]

/-- `FONT`: the 80 font bytes (16 glyphs of 5), copied to `fontBase` at reset.

PRESUMED (unsafe, entry 3): the document gives no byte of it; this is the default table the spec itself takes from
general knowledge (93_implementation_defined.md G1, 92_eei_decisions.md D17). -/
def font : List Byte := fontLow ++ fontHigh

/-- The random byte of the `k`-th executed `Cxnn` for which the host has put no byte before the machine: a FREE VALUE,
any byte, under no law (42_alu.md R111, 92_eei_decisions.md D16, entry 2). It has no body, so nothing can evaluate it. -/
opaque randomByte : Nat → Byte

end Sys2Proof.Config
end

