-- ==== Sys2Proof/WellFormed.lean ====
section
/-! DEFINITION. The checks on raw data that the types do not make: an instruction's sprite height and a ROM's length. -/

namespace Sys2Proof

/-- An instruction is well formed when every operand fits its field. The types bound all of them but the sprite height
`n`, whose field has 4 bits (30_encoding.md R51, R53; 44_display.md R141 (d)). -/
def Instr.wf : Instr → Bool
  | .cls | .ret => true
  | .jp _ | .call _ | .ldI _ | .jpV0 _ => true
  | .seImm _ _ | .sneImm _ _ | .ldImm _ _ | .addImm _ _ | .rnd _ _ => true
  | .seReg _ _ | .ldReg _ _ | .orReg _ _ | .andReg _ _ | .xorReg _ _ | .addReg _ _ | .subReg _ _ => true
  | .shr _ _ | .subn _ _ | .shl _ _ | .sneReg _ _ => true
  | .drw _ _ n => decide (n ≤ 15)
  | .skp _ | .sknp _ | .ldVxDT _ | .ldVxK _ | .ldDTVx _ | .ldSTVx _ => true
  | .addI _ | .ldF _ | .ldB _ | .storeRegs _ | .loadRegs _ => true

/-- A ROM image is well formed when it fits into 0x200 to 0xFFF (70_reset_and_hazards.md R211, R212). -/
def romWf (rom : List Byte) : Bool := decide (rom.length ≤ Config.romMax)

end Sys2Proof
end

