-- ==== Sys2Proof/Decode.lean ====
section
/-! DEFINITION. Decoding of instruction words and bytes, the encoder, and the opcode map as mask and match rows
(30_encoding.md R50 to R57). -/

namespace Sys2Proof

/-! ## Fields (R51) -/

/-- `op[15:12]`, the major opcode. -/
def majorField (w : OpWord) : BitVec 4 := w.extractLsb' 12 4

/-- `x = op[11:8]`. -/
def xField (w : OpWord) : Reg := ⟨(w.extractLsb' 8 4).toNat, (w.extractLsb' 8 4).isLt⟩

/-- `y = op[7:4]`. -/
def yField (w : OpWord) : Reg := ⟨(w.extractLsb' 4 4).toNat, (w.extractLsb' 4 4).isLt⟩

/-- `n = op[3:0]`. -/
def nField (w : OpWord) : BitVec 4 := w.extractLsb' 0 4

/-- `nn = op[7:0]`. -/
def nnField (w : OpWord) : Byte := w.extractLsb' 0 8

/-- `nnn = op[11:0]`. -/
def nnnField (w : OpWord) : Addr := w.extractLsb' 0 12

/-- The instruction word of two bytes, the first (at the lower address) on top: big-endian (20_memory.md R34). -/
def wordOfBytes (hi lo : Byte) : OpWord := hi ++ lo

/-- Bits 15 to 8 of a word: the byte stored at the lower address (20_memory.md R34). -/
def highByte (w : OpWord) : Byte := w.extractLsb' 8 8

/-- Bits 7 to 0 of a word: the byte stored at the higher address (20_memory.md R34). -/
def lowByte (w : OpWord) : Byte := w.extractLsb' 0 8

/-! ## Decoding -/

/-- Why bytes are no instruction. The six families of unmatched words are those of 30_encoding.md R56, (a) to (f). -/
inductive Reject where
  /-- Fewer than two bytes. -/
  | truncated
  /-- `0nnn` other than `00E0` and `00EE`. -/
  | unmatched0
  /-- `5xyN` with `N` not 0. -/
  | unmatched5
  /-- `8xyN` with `N` in 8 to D or F. -/
  | unmatched8
  /-- `9xyN` with `N` not 0. -/
  | unmatched9
  /-- `Exnn` with `nn` other than 9E and A1. -/
  | unmatchedE
  /-- `Fxnn` with `nn` other than the nine of the map. -/
  | unmatchedF
  deriving DecidableEq, Repr

/-- The family `8xyN`, by its low nibble (R55 rows 10 to 18). -/
def decode8 (w : OpWord) : Except Reject Instr :=
  if nField w = 0x0#4 then .ok (.ldReg (xField w) (yField w))
  else if nField w = 0x1#4 then .ok (.orReg (xField w) (yField w))
  else if nField w = 0x2#4 then .ok (.andReg (xField w) (yField w))
  else if nField w = 0x3#4 then .ok (.xorReg (xField w) (yField w))
  else if nField w = 0x4#4 then .ok (.addReg (xField w) (yField w))
  else if nField w = 0x5#4 then .ok (.subReg (xField w) (yField w))
  else if nField w = 0x6#4 then .ok (.shr (xField w) (yField w))
  else if nField w = 0x7#4 then .ok (.subn (xField w) (yField w))
  else if nField w = 0xE#4 then .ok (.shl (xField w) (yField w))
  else .error .unmatched8

/-- The family `Fxnn`, by its low byte (R55 rows 26 to 34). -/
def decodeF (w : OpWord) : Except Reject Instr :=
  if nnField w = 0x07#8 then .ok (.ldVxDT (xField w))
  else if nnField w = 0x0A#8 then .ok (.ldVxK (xField w))
  else if nnField w = 0x15#8 then .ok (.ldDTVx (xField w))
  else if nnField w = 0x18#8 then .ok (.ldSTVx (xField w))
  else if nnField w = 0x1E#8 then .ok (.addI (xField w))
  else if nnField w = 0x29#8 then .ok (.ldF (xField w))
  else if nnField w = 0x33#8 then .ok (.ldB (xField w))
  else if nnField w = 0x55#8 then .ok (.storeRegs (xField w))
  else if nnField w = 0x65#8 then .ok (.loadRegs (xField w))
  else .error .unmatchedF

/-- The instruction a word stands for, or the family of unmatched words it belongs to: every fixed digit of a pattern
is significant (30_encoding.md R54, R55, R56). -/
def decodeWord (w : OpWord) : Except Reject Instr :=
  if majorField w = 0x0#4 then
    if w = 0x00E0#16 then .ok .cls
    else if w = 0x00EE#16 then .ok .ret
    else .error .unmatched0
  else if majorField w = 0x1#4 then .ok (.jp (nnnField w))
  else if majorField w = 0x2#4 then .ok (.call (nnnField w))
  else if majorField w = 0x3#4 then .ok (.seImm (xField w) (nnField w))
  else if majorField w = 0x4#4 then .ok (.sneImm (xField w) (nnField w))
  else if majorField w = 0x5#4 then
    if nField w = 0x0#4 then .ok (.seReg (xField w) (yField w)) else .error .unmatched5
  else if majorField w = 0x6#4 then .ok (.ldImm (xField w) (nnField w))
  else if majorField w = 0x7#4 then .ok (.addImm (xField w) (nnField w))
  else if majorField w = 0x8#4 then decode8 w
  else if majorField w = 0x9#4 then
    if nField w = 0x0#4 then .ok (.sneReg (xField w) (yField w)) else .error .unmatched9
  else if majorField w = 0xA#4 then .ok (.ldI (nnnField w))
  else if majorField w = 0xB#4 then .ok (.jpV0 (nnnField w))
  else if majorField w = 0xC#4 then .ok (.rnd (xField w) (nnField w))
  else if majorField w = 0xD#4 then .ok (.drw (xField w) (yField w) (nField w).toNat)
  else if majorField w = 0xE#4 then
    if nnField w = 0x9E#8 then .ok (.skp (xField w))
    else if nnField w = 0xA1#8 then .ok (.sknp (xField w))
    else .error .unmatchedE
  else decodeF w

/-- Reads one instruction from a list of bytes and gives the bytes after it (30_encoding.md R50: always two bytes). -/
def decode : List Byte → Except Reject (Instr × List Byte)
  | hi :: lo :: rest =>
    match decodeWord (wordOfBytes hi lo) with
    | .ok i => .ok (i, rest)
    | .error e => .error e
  | _ => .error .truncated

/-! ## Encoding -/

/-- Format `A` (R52): the major opcode and a 12-bit address. -/
def encodeA (major : BitVec 4) (nnn : Addr) : OpWord := major ++ nnn

/-- Format `XK` (R52): the major opcode, a register and a byte; also format `X`, whose byte is fixed. -/
def encodeXK (major : BitVec 4) (x : Reg) (nn : Byte) : OpWord := major ++ BitVec.ofNat 4 x.val ++ nn

/-- Format `XYN` (R52): the major opcode, two registers and a nibble; also format `XY`, whose nibble is fixed. -/
def encodeXYN (major : BitVec 4) (x y : Reg) (n : BitVec 4) : OpWord :=
  major ++ BitVec.ofNat 4 x.val ++ BitVec.ofNat 4 y.val ++ n

/-- The word of an instruction (30_encoding.md R55). -/
def encodeWord : Instr → OpWord
  | .cls => 0x00E0#16
  | .ret => 0x00EE#16
  | .jp nnn => encodeA 0x1 nnn
  | .call nnn => encodeA 0x2 nnn
  | .seImm x nn => encodeXK 0x3 x nn
  | .sneImm x nn => encodeXK 0x4 x nn
  | .seReg x y => encodeXYN 0x5 x y 0x0
  | .ldImm x nn => encodeXK 0x6 x nn
  | .addImm x nn => encodeXK 0x7 x nn
  | .ldReg x y => encodeXYN 0x8 x y 0x0
  | .orReg x y => encodeXYN 0x8 x y 0x1
  | .andReg x y => encodeXYN 0x8 x y 0x2
  | .xorReg x y => encodeXYN 0x8 x y 0x3
  | .addReg x y => encodeXYN 0x8 x y 0x4
  | .subReg x y => encodeXYN 0x8 x y 0x5
  | .shr x y => encodeXYN 0x8 x y 0x6
  | .subn x y => encodeXYN 0x8 x y 0x7
  | .shl x y => encodeXYN 0x8 x y 0xE
  | .sneReg x y => encodeXYN 0x9 x y 0x0
  | .ldI nnn => encodeA 0xA nnn
  | .jpV0 nnn => encodeA 0xB nnn
  | .rnd x nn => encodeXK 0xC x nn
  | .drw x y n => encodeXYN 0xD x y (BitVec.ofNat 4 n)
  | .skp x => encodeXK 0xE x 0x9E
  | .sknp x => encodeXK 0xE x 0xA1
  | .ldVxDT x => encodeXK 0xF x 0x07
  | .ldVxK x => encodeXK 0xF x 0x0A
  | .ldDTVx x => encodeXK 0xF x 0x15
  | .ldSTVx x => encodeXK 0xF x 0x18
  | .addI x => encodeXK 0xF x 0x1E
  | .ldF x => encodeXK 0xF x 0x29
  | .ldB x => encodeXK 0xF x 0x33
  | .storeRegs x => encodeXK 0xF x 0x55
  | .loadRegs x => encodeXK 0xF x 0x65

/-- The two bytes of an instruction as memory holds them, high byte first (20_memory.md R34). -/
def encode (i : Instr) : List Byte := [highByte (encodeWord i), lowByte (encodeWord i)]

/-! ## The opcode map as data (R54, R55) -/

/-- One row of the opcode map: a word belongs to it exactly when `word & mask = value` (R54). -/
structure Row where
  /-- The row's mnemonic as spec/opcode_table.json spells it. -/
  mnemonic : String
  mask : OpWord
  value : OpWord
  deriving DecidableEq, Repr

/-- A word matches a row (R54). -/
def Row.matchesWord (r : Row) (w : OpWord) : Bool := w &&& r.mask == r.value

/-- The row of an instruction: mask and match columns of the R55 table. -/
def Instr.row : Instr → Row
  | .cls => ⟨"CLS", 0xFFFF, 0x00E0⟩
  | .ret => ⟨"RET", 0xFFFF, 0x00EE⟩
  | .jp _ => ⟨"JP_nnn", 0xF000, 0x1000⟩
  | .call _ => ⟨"CALL_nnn", 0xF000, 0x2000⟩
  | .seImm _ _ => ⟨"SE_Vx__nn", 0xF000, 0x3000⟩
  | .sneImm _ _ => ⟨"SNE_Vx__nn", 0xF000, 0x4000⟩
  | .seReg _ _ => ⟨"SE_Vx__Vy", 0xF00F, 0x5000⟩
  | .ldImm _ _ => ⟨"LD_Vx__nn", 0xF000, 0x6000⟩
  | .addImm _ _ => ⟨"ADD_Vx__nn", 0xF000, 0x7000⟩
  | .ldReg _ _ => ⟨"LD_Vx__Vy", 0xF00F, 0x8000⟩
  | .orReg _ _ => ⟨"OR_Vx__Vy", 0xF00F, 0x8001⟩
  | .andReg _ _ => ⟨"AND_Vx__Vy", 0xF00F, 0x8002⟩
  | .xorReg _ _ => ⟨"XOR_Vx__Vy", 0xF00F, 0x8003⟩
  | .addReg _ _ => ⟨"ADD_Vx__Vy", 0xF00F, 0x8004⟩
  | .subReg _ _ => ⟨"SUB_Vx__Vy", 0xF00F, 0x8005⟩
  | .shr _ _ => ⟨"SHR_Vx__Vy", 0xF00F, 0x8006⟩
  | .subn _ _ => ⟨"SUBN_Vx__Vy", 0xF00F, 0x8007⟩
  | .shl _ _ => ⟨"SHL_Vx__Vy", 0xF00F, 0x800E⟩
  | .sneReg _ _ => ⟨"SNE_Vx__Vy", 0xF00F, 0x9000⟩
  | .ldI _ => ⟨"LD_I__nnn", 0xF000, 0xA000⟩
  | .jpV0 _ => ⟨"JP_V0__nnn", 0xF000, 0xB000⟩
  | .rnd _ _ => ⟨"RND_Vx__nn", 0xF000, 0xC000⟩
  | .drw _ _ _ => ⟨"DRW_Vx__Vy__n", 0xF000, 0xD000⟩
  | .skp _ => ⟨"SKP_Vx", 0xF0FF, 0xE09E⟩
  | .sknp _ => ⟨"SKNP_Vx", 0xF0FF, 0xE0A1⟩
  | .ldVxDT _ => ⟨"LD_Vx__DT", 0xF0FF, 0xF007⟩
  | .ldVxK _ => ⟨"LD_Vx__K", 0xF0FF, 0xF00A⟩
  | .ldDTVx _ => ⟨"LD_DT__Vx", 0xF0FF, 0xF015⟩
  | .ldSTVx _ => ⟨"LD_ST__Vx", 0xF0FF, 0xF018⟩
  | .addI _ => ⟨"ADD_I__Vx", 0xF0FF, 0xF01E⟩
  | .ldF _ => ⟨"LD_F__Vx", 0xF0FF, 0xF029⟩
  | .ldB _ => ⟨"LD_B__Vx", 0xF0FF, 0xF033⟩
  | .storeRegs _ => ⟨"LD__I___Vx", 0xF0FF, 0xF055⟩
  | .loadRegs _ => ⟨"LD_Vx___I", 0xF0FF, 0xF065⟩

/-- One instruction of every row, in the order of the R55 table. -/
def rowExemplars : List Instr :=
  [.cls, .ret, .jp 0, .call 0, .seImm 0 0, .sneImm 0 0, .seReg 0 0, .ldImm 0 0, .addImm 0 0] ++
  [.ldReg 0 0, .orReg 0 0, .andReg 0 0, .xorReg 0 0, .addReg 0 0, .subReg 0 0, .shr 0 0, .subn 0 0, .shl 0 0] ++
  [.sneReg 0 0, .ldI 0, .jpV0 0, .rnd 0 0, .drw 0 0 0, .skp 0, .sknp 0, .ldVxDT 0, .ldVxK 0, .ldDTVx 0] ++
  [.ldSTVx 0, .addI 0, .ldF 0, .ldB 0, .storeRegs 0, .loadRegs 0]

/-- The 34 rows of the opcode map (R55). -/
def opcodeMap : List Row := rowExemplars.map Instr.row

/-! ## What the host asks of the decoder -/

/-- The instruction read from an instruction whose table bits are `w`. Every row has 16 bits, so bits above the first
`nbits` are 0, and a word that still has bits above the 16 of one instruction is none (entry 10). -/
def decodeTableWord (nbits w : Nat) : Option Instr :=
  let bits := w % 2 ^ nbits
  if bits < 2 ^ 16 then
    match decode [highByte (BitVec.ofNat 16 bits), lowByte (BitVec.ofNat 16 bits)] with
    | .ok (i, _) => some i
    | .error _ => none
  else none

end Sys2Proof
end

