-- ==== Sys2Proof/Machine/State.lean ====
section
/-! DEFINITION. The state of the Machine (10_state.md R10 to R28), its reset value (R26), and the reasons a step can
stop. -/

namespace Sys2Proof.Machine

/-- The kinds of error a `step` can raise and the fault latch can hold (10_state.md R22, 60_exceptions.md R180 to R182).
As an outcome of `step` it says: the Machine is in the faulted state, this `step` returned `Fail` of the latched kind
and changed nothing (40_step_cycle.md R71, entry 1). -/
inductive Fault where
  /-- Raised by `CALL` with a full stack (R180); answered by every later `step`. Safe: it is the spec's own stop. -/
  | stackOverflow
  /-- Raised by `RET` with an empty stack (R181); answered by every later `step`. Safe: it is the spec's own stop. -/
  | stackUnderflow
  /-- Raised by an access above 0xFFF (R182); answered by every later `step`. Safe: it is the spec's own stop. -/
  | invalidAddress
  deriving DecidableEq, Repr

/-- Why the model gives a step no meaning. -/
inductive Refusal where
  /-- Raised by an arm of `exec` whose instruction has no meaning yet. Safe: nothing can be proved of it. -/
  | notModelled (mnemonic : String)
  deriving DecidableEq, Repr

/-- Memory as data: the cells that differ from their reset contents, addresses strictly rising (entry 5). -/
abbrev Memory := List Host.Cell

/-- The framebuffer: 2048 booleans, pixel (column `x`, row `y`) at index `x + y*64` (10_state.md R19). -/
abbrev Framebuffer := Vector Bool Config.fbPixels

/-- The input vector: 16 booleans, `true` is pressed (10_state.md R20). -/
abbrev Keys := Vector Bool 16

/-- The state: the twelve components of 10_state.md R10 under the spec's names, and the model's own two fields for the
random input (entry 2). -/
structure State where
  /-- General registers `V0..VF` (R11); `VF` doubles as the flag register (R12). -/
  V : Vector Byte 16
  /-- Address register (R13). -/
  I : Addr
  /-- Program counter (R14). -/
  pc : Addr
  /-- Number of return addresses on the call stack, 0 to 16 (R15). -/
  sp : Fin 17
  /-- Call stack (R16). -/
  stack : Vector Addr Config.stackDepth
  /-- Delay timer (R17). -/
  DT : Byte
  /-- Sound timer (R18). -/
  ST : Byte
  /-- Memory (R23). -/
  mem : Memory
  /-- Framebuffer (R19). -/
  fb : Framebuffer
  /-- Input vector (R20). -/
  key : Keys
  /-- Wait-for-key latch: the register that waits (R21). -/
  wait : Option Reg
  /-- Fault latch (R22). -/
  fault : Option Fault
  /-- The model's own: random bytes the host has put before the machine, the next first (entry 2). -/
  randomInput : List Byte
  /-- The model's own: how many `Cxnn` have been executed (entry 2). -/
  draws : Nat
  deriving DecidableEq, Repr

/-- The state after `reset` (10_state.md R26, 70_reset_and_hazards.md R210). Memory lists no cell: every address reads
as its reset contents. `randomInput` and `draws` are the model's own, DESIGN CHOICE (entry 2). -/
def State.reset : State where
  V := Vector.replicate 16 0
  I := 0x000
  pc := 0x200
  sp := 0
  stack := Vector.replicate Config.stackDepth 0x000
  DT := 0
  ST := 0
  mem := []
  fb := Vector.replicate Config.fbPixels false
  key := Vector.replicate 16 false
  wait := none
  fault := none
  randomInput := []
  draws := 0

end Sys2Proof.Machine
end

