-- ==== Sys2Proof/Machine/Ops.lean ====
section
/-! DEFINITION. The shared operations over memory, registers and latches: byte accesses and blocks of them, the updates
of each component, raising an error, the wait check, the fetch, and the no-op. -/

namespace Sys2Proof.Machine

/-! ## Memory cells -/

/-- What an address reads as when memory lists no cell for it: its reset contents, the font at `fontBase` and 0
elsewhere (10_state.md R26, 20_memory.md R33, entry 5). -/
def Memory.background (a : Nat) : Byte := Config.font.getD (a - Config.fontBase) 0

/-- The listed byte of an address. -/
def Memory.find : Memory → Nat → Option Byte
  | [], _ => none
  | (a, v) :: m, k => if a = k then some v else Memory.find m k

/-- `mem[a]`: the byte an address holds. -/
def Memory.byteAt (m : Memory) (a : Nat) : Byte := (Memory.find m a).getD (Memory.background a)

/-- Lists a byte for an address, in address order. -/
def Memory.put : Memory → Nat → Byte → Memory
  | [], k, v => [(k, v)]
  | (a, w) :: m, k, v =>
    if k < a then (k, v) :: (a, w) :: m
    else if k = a then (k, v) :: m
    else (a, w) :: Memory.put m k v

/-- `mem[a] <- v`, keeping the canonical form: a byte equal to the reset contents is not listed. -/
def Memory.setByte (m : Memory) (a : Nat) (v : Byte) : Memory :=
  if v = Memory.background a then m.filter (fun c => c.1 ≠ a) else Memory.put m a v

/-- The canonical form of memory: addresses strictly rising and inside 0x000 to 0xFFF, and no listed byte equal to what
its address reads as unlisted. -/
abbrev Memory.wf (m : Memory) : Prop :=
  m.Pairwise (fun a b => a.1 < b.1) ∧ ∀ c ∈ m, c.1 < Config.memSize ∧ c.2 ≠ Memory.background c.1

/-! ## Byte accesses and blocks -/

/-- `MemRead(addr, 1)` (20_memory.md R32). -/
def memRead (m : Memory) (addr : Nat) : Except Fault Byte :=
  if addr ≤ 0xFFF then .ok (Memory.byteAt m addr) else .error .invalidAddress

/-- `MemWrite(addr, 1, v)` (20_memory.md R32). -/
def memWrite (m : Memory) (addr : Nat) (v : Byte) : Except Fault Memory :=
  if addr ≤ 0xFFF then .ok (Memory.setByte m addr v) else .error .invalidAddress

/-- Single-byte reads at ascending addresses (20_memory.md R35). -/
def readEach (m : Memory) (base : Nat) : Nat → Except Fault (List Byte)
  | 0 => .ok []
  | n + 1 =>
    match memRead m base with
    | .error k => .error k
    | .ok b =>
      match readEach m (base + 1) n with
      | .error k => .error k
      | .ok bs => .ok (b :: bs)

/-- Single-byte writes at ascending addresses (20_memory.md R35). -/
def writeEach (m : Memory) (base : Nat) : List Byte → Except Fault Memory
  | [] => .ok m
  | b :: bs =>
    match memWrite m base b with
    | .error k => .error k
    | .ok m' => writeEach m' (base + 1) bs

/-- Reads `n` bytes from `base`: the whole range is checked before any byte is read (20_memory.md R36, R44). -/
def readBlock (m : Memory) (base n : Nat) : Except Fault (List Byte) :=
  if base + n > Config.memSize then .error .invalidAddress else readEach m base n

/-- Writes bytes from `base`: the whole range is checked before any byte is written (20_memory.md R36, R44). -/
def writeBlock (m : Memory) (base : Nat) (bs : List Byte) : Except Fault Memory :=
  if base + bs.length > Config.memSize then .error .invalidAddress else writeEach m base bs

/-! ## Updates of one component -/

/-- `V[x]`. -/
def State.getV (s : State) (x : Reg) : Byte := s.V[x.val]

/-- `V[x] <- v`. -/
def State.setV (s : State) (x : Reg) (v : Byte) : State := { s with V := s.V.set x.val v }

/-- Replaces the whole register file. -/
def State.setFile (s : State) (V : Vector Byte 16) : State := { s with V := V }

/-- `I <- a`. -/
def State.setI (s : State) (a : Addr) : State := { s with I := a }

/-- `pc <- a`. -/
def State.setPc (s : State) (a : Addr) : State := { s with pc := a }

/-- `DT <- v`. -/
def State.setDT (s : State) (v : Byte) : State := { s with DT := v }

/-- `ST <- v`. -/
def State.setST (s : State) (v : Byte) : State := { s with ST := v }

/-- Replaces memory. -/
def State.setMem (s : State) (m : Memory) : State := { s with mem := m }

/-- Replaces the framebuffer. -/
def State.setFb (s : State) (f : Framebuffer) : State := { s with fb := f }

/-- `key <- v`, all sixteen at once. -/
def State.setKey (s : State) (v : Keys) : State := { s with key := v }

/-- `wait <- w`. -/
def State.setWait (s : State) (w : Option Reg) : State := { s with wait := w }

/-- `fault <- f`. -/
def State.setFault (s : State) (f : Option Fault) : State := { s with fault := f }

/-- `stack[sp] <- a; sp <- sp + 1`, for a stack that is not full (10_state.md R16). -/
def State.push (s : State) (a : Addr) (h : s.sp.val < 16) : State :=
  { s with stack := s.stack.set s.sp.val a, sp := ⟨s.sp.val + 1, by omega⟩ }

/-- `stack[sp - 1]`, for a stack that is not empty (10_state.md R16). -/
def State.top (s : State) (h : 0 < s.sp.val) : Addr := s.stack[s.sp.val - 1]'(by show _ < 16; have := s.sp.isLt; omega)

/-- `sp <- sp - 1`; the entry is not cleared (41_flow.md R85). -/
def State.pop (s : State) : State := { s with sp := ⟨s.sp.val - 1, by have := s.sp.isLt; omega⟩ }

/-- `rand`: the byte the random source supplies to this `step`, the next one the host has put before the machine or
else a free value (40_step_cycle.md R79, entry 2). -/
def State.rand (s : State) : Byte := s.randomInput.headD (Config.randomByte s.draws)

/-- One random byte is used up; the next draw is a fresh one (42_alu.md R111, entry 2). -/
def State.drawn (s : State) : State := { s with randomInput := s.randomInput.tail, draws := s.draws + 1 }

/-! ## Program counter -/

/-- `npc = (pc0 + 2) mod 4096` (40_step_cycle.md R74). -/
def State.npc (s : State) : Addr := s.pc + 2

/-- `pc <- npc`, the advance of every instruction that is no control transfer (40_step_cycle.md R74 (a)). -/
def State.advance (s : State) : State := s.setPc s.npc

/-- The advance of a skip: `pc0 + 4` when taken, `npc` when not (40_step_cycle.md R74 (b)). -/
def State.skipIf (s : State) (taken : Bool) : State := if taken then s.setPc (s.pc + 4) else s.advance

/-! ## Raising an error (60_exceptions.md R184) -/

/-- `raise K`, the machine's only trap entry, applied to the state at the start of the `step`: nothing the instruction
computed is written, the latch takes the kind, and `pc` stays at the failing instruction (40_step_cycle.md R78,
60_exceptions.md R184). There is no return from it: only `reset` and a successful `loadProgram` clear the latch
(60_exceptions.md R188). -/
def State.raise (s : State) (k : Fault) : State := s.setFault (some k)

/-- Goes on with what a checked access gave, or raises the error it ended in. -/
def orRaise {α : Type} (s : State) (r : Except Fault α) (go : α → State) : Host.Outcome State Fault Refusal :=
  match r with
  | .ok a => .next (go a)
  | .error k => .next (s.raise k)

/-- The address a failure result carries for the host's benefit: always 0x1000, stored nowhere (60_exceptions.md R183,
20_memory.md R36, entry 11). -/
def Fault.reportedAddress : Fault → Option Nat
  | .invalidAddress => some 0x1000
  | .stackOverflow | .stackUnderflow => none

/-! ## The parts of `step` that are no instruction (40_step_cycle.md) -/

/-- The lowest-numbered pressed key. -/
def lowestPressed (key : Keys) : Option Reg := (List.finRange 16).find? (fun k => key[k.val])

/-- The wait-state check for register `r`: if a key is pressed, the lowest one goes into `V[r]` and the latch clears;
otherwise nothing changes. No instruction runs and `pc` stays (40_step_cycle.md R72). -/
def waitCheck (r : Reg) (s : State) : State :=
  match lowestPressed s.key with
  | some k => (s.setV r (BitVec.ofNat 8 k.val)).setWait none
  | none => s

/-- The fetch: the two bytes at `pc0` and `pc0 + 1`, high byte first; it raises at `pc0 = 0xFFF` and does not wrap
(40_step_cycle.md R73). -/
def fetch (s : State) : Except Fault OpWord :=
  if s.pc = 0xFFF then .error .invalidAddress
  else
    match memRead s.mem s.pc.toNat with
    | .error k => .error k
    | .ok hi =>
      match memRead s.mem (s.pc.toNat + 1) with
      | .error k => .error k
      | .ok lo => .ok (wordOfBytes hi lo)

/-- An unmatched word: `pc <- npc` and nothing else (40_step_cycle.md R76). -/
def noOp (s : State) : State := s.advance

/-- Where the next instruction is fetched once it can be: `pc`, or the program start when `pc` is 0xFFF, where every
fetch raises (entry 6). -/
def fetchableAt (s : State) : Addr := if s.pc = 0xFFF then BitVec.ofNat 12 Config.programStart else s.pc

/-- Places an instruction word where `step` fetches, and clears the two latches that keep `step` from fetching
(entry 6). -/
def placeWord (s : State) (w : OpWord) : State :=
  let a := fetchableAt s
  let m := Memory.setByte (Memory.setByte s.mem a.toNat (highByte w)) (a.toNat + 1) (lowByte w)
  (((s.setPc a).setMem m).setWait none).setFault none

end Sys2Proof.Machine
end

