-- ==== Sys2Proof/Machine/Flags.lean ====
section
/-! DEFINITION. The values instructions write to `VF` (10_state.md R12), and the order of a flag write and a result
write (42_alu.md R112). -/

namespace Sys2Proof.Machine

/-- A flag as the byte 1 or 0. -/
def flagByte (b : Bool) : Byte := if b then 1 else 0

/-- Carry out of the 8-bit addition: 1 when the exact sum exceeds 255 (42_alu.md R106). -/
def carryFlag (a b : Byte) : Byte := flagByte (decide (a.toNat + b.toNat > 255))

/-- No borrow in `a - b`: 1 when `a >= b` (42_alu.md R107, R109). -/
def noBorrowFlag (a b : Byte) : Byte := flagByte (decide (a.toNat ≥ b.toNat))

/-- The bit a right shift by one pushes out: old bit 0 (42_alu.md R108). -/
def rightOutFlag (a : Byte) : Byte := a &&& 1

/-- The bit a left shift by one pushes out: old bit 7 (42_alu.md R110). -/
def leftOutFlag (a : Byte) : Byte := (a &&& 0x80) >>> 7

/-- `V[15] <- f`, then `V[x] <- r`: the flag lands first and the result last, so for `x = 15` the result remains
(42_alu.md R112, 92_eei_decisions.md D5). -/
def State.writeFlagThenResult (s : State) (x : Reg) (f r : Byte) : State := (s.setV regF f).setV x r

end Sys2Proof.Machine
end

