-- ==== Sys2Proof/Machine/Operands.lean ====
section
/-! DEFINITION. The operand forms: jump targets, the values written to `I`, decimal digits, register blocks, key
lookup (30_encoding.md R51 to R53; immediates and register numbers are used as the decoder gives them). -/

namespace Sys2Proof.Machine

/-- `(nnn + V[0]) mod 4096`, the target of `Bnnn` (41_flow.md R92). -/
def indexedTarget (s : State) (nnn : Addr) : Addr := BitVec.ofNat 12 ((nnn.toNat + (s.getV 0).toNat) % Config.memSize)

/-- `(I + V[x]) mod 4096`, the value `Fx1E` writes (43_index_memory.md R121). -/
def indexPlus (s : State) (x : Reg) : Addr := BitVec.ofNat 12 ((s.I.toNat + (s.getV x).toNat) % Config.memSize)

/-- `V[x] * 5`, the value `Fx29` writes: the address of a glyph; at most 1275, so nothing is lost in 12 bits
(43_index_memory.md R122). -/
def glyphAddress (v : Byte) : Addr := BitVec.ofNat 12 (Config.fontBase + v.toNat * Config.glyphLen)

/-- The base address of a data access, `I`, before any offset is added: effective addresses `I + k` are not reduced
(20_memory.md R32). -/
def dataBase (s : State) : Nat := s.I.toNat

/-- Hundreds, tens and units of a byte, the three bytes `Fx33` stores (43_index_memory.md R123). -/
def decimalDigits (v : Byte) : List Byte :=
  [BitVec.ofNat 8 (v.toNat / 100), BitVec.ofNat 8 (v.toNat / 10 % 10), BitVec.ofNat 8 (v.toNat % 10)]

/-- `V[0]` to `V[x]`, the bytes `Fx55` stores (43_index_memory.md R124). -/
def registersUpTo (s : State) (x : Reg) : List Byte := s.V.toList.take (x.val + 1)

/-- Writes bytes to the registers from number `k` up, one each (43_index_memory.md R125); at most `V[15]` is reached. -/
def fillRegisters (V : Vector Byte 16) (k : Nat) : List Byte → Vector Byte 16
  | [] => V
  | b :: bs => fillRegisters (if h : k < 16 then V.set k b h else V) (k + 1) bs

/-- `pressed(v)`: key `v` is pressed; a number above 15 names no key and is not pressed (45_timer_key.md R156). -/
def pressed (key : Keys) (v : Byte) : Bool := if h : v.toNat < 16 then key[v.toNat] else false

end Sys2Proof.Machine
end

