-- ==== Sys2Proof/Machine/Alu.lean ====
section
/-! DEFINITION. The register file and arithmetic unit (42_alu.md). Operands are read from the state at the start of
the step; results are reduced modulo 256 (R113). -/

namespace Sys2Proof.Machine

/-- `6xnn` (R100). -/
def execLdImm (x : Reg) (nn : Byte) (s : State) : Host.Outcome State Fault Refusal :=
  .next (s.setV x nn).advance

/-- `7xnn` (R101): no flag. -/
def execAddImm (x : Reg) (nn : Byte) (s : State) : Host.Outcome State Fault Refusal :=
  .next (s.setV x (s.getV x + nn)).advance

/-- `8xy0` (R102). -/
def execLdReg (x y : Reg) (s : State) : Host.Outcome State Fault Refusal :=
  .next (s.setV x (s.getV y)).advance

/-- `8xy1` (R103): no flag. -/
def execOrReg (x y : Reg) (s : State) : Host.Outcome State Fault Refusal :=
  .next (s.setV x (s.getV x ||| s.getV y)).advance

/-- `8xy2` (R104): no flag. -/
def execAndReg (x y : Reg) (s : State) : Host.Outcome State Fault Refusal :=
  .next (s.setV x (s.getV x &&& s.getV y)).advance

/-- `8xy3` (R105): no flag. -/
def execXorReg (x y : Reg) (s : State) : Host.Outcome State Fault Refusal :=
  .next (s.setV x (s.getV x ^^^ s.getV y)).advance

/-- `8xy4` (R106): sum and carry. -/
def execAddReg (x y : Reg) (s : State) : Host.Outcome State Fault Refusal :=
  .next (s.writeFlagThenResult x (carryFlag (s.getV x) (s.getV y)) (s.getV x + s.getV y)).advance

/-- `8xy5` (R107): `V[x] - V[y]` and no-borrow. -/
def execSubReg (x y : Reg) (s : State) : Host.Outcome State Fault Refusal :=
  .next (s.writeFlagThenResult x (noBorrowFlag (s.getV x) (s.getV y)) (s.getV x - s.getV y)).advance

/-- `8xy6` (R108): logical right shift of `V[x]`; `y` is not used. -/
def execShr (x _y : Reg) (s : State) : Host.Outcome State Fault Refusal :=
  .next (s.writeFlagThenResult x (rightOutFlag (s.getV x)) (s.getV x >>> 1)).advance

/-- `8xy7` (R109): `V[y] - V[x]` and no-borrow. -/
def execSubn (x y : Reg) (s : State) : Host.Outcome State Fault Refusal :=
  .next (s.writeFlagThenResult x (noBorrowFlag (s.getV y) (s.getV x)) (s.getV y - s.getV x)).advance

/-- `8xyE` (R110): left shift of `V[x]`; `y` is not used. -/
def execShl (x _y : Reg) (s : State) : Host.Outcome State Fault Refusal :=
  .next (s.writeFlagThenResult x (leftOutFlag (s.getV x)) (s.getV x <<< 1)).advance

/-- `Cxnn` (R111): a fresh random byte under a mask (entry 2). -/
def execRnd (x : Reg) (nn : Byte) (s : State) : Host.Outcome State Fault Refusal :=
  .next ((s.setV x (s.rand &&& nn)).drawn).advance

end Sys2Proof.Machine
end

