-- ==== Sys2Proof/Machine/Display.lean ====
section
/-! DEFINITION. Clear screen, draw sprite, and the sprite renderer (44_display.md). -/

namespace Sys2Proof.Machine

/-- The index of the pixel a column and row wrap to: `(column mod 64) + (row mod 32) * 64` (R138, R139). -/
def pixelIndex (column row : Nat) : Fin Config.fbPixels :=
  ⟨column % 64 + row % 32 * 64, by show _ < 2048; omega⟩

/-- Bit `j` of a sprite row counted from the left: bit 7 first (R137). -/
def spriteBit (row : Byte) (j : Nat) : Bool := row.getLsbD (7 - j)

/-- One pixel of a sprite: XOR into the framebuffer; a set pixel that becomes unset is a collision (R137, R140). -/
def plotBit (p : Framebuffer × Bool) (q : Fin Config.fbPixels) (b : Bool) : Framebuffer × Bool :=
  (p.1.set q.val (p.1[q.val] ^^ b), p.2 || (p.1[q.val] && b))

/-- The eight pixels of one sprite row, left to right (R137). -/
def plotRow (p : Framebuffer × Bool) (column row : Nat) (bits : Byte) : Framebuffer × Bool :=
  [0, 1, 2, 3, 4, 5, 6, 7].foldl (fun p j => plotBit p (pixelIndex (column + j) row) (spriteBit bits j)) p

/-- The rows of a sprite from the top one down, the first at `row` (R137). -/
def plotRows (p : Framebuffer × Bool) (column row : Nat) : List Byte → Framebuffer × Bool
  | [] => p
  | bits :: rest => plotRows (plotRow p column row bits) column (row + 1) rest

/-- `drawSprite(fb, X0, Y0, rows)` (R137). -/
def drawSprite (fb : Framebuffer) (x0 y0 : Byte) (rows : List Byte) : Framebuffer × Bool :=
  plotRows (fb, false) x0.toNat y0.toNat rows

/-- `00E0` (R135): every pixel unset; `VF` not written. -/
def execCls (s : State) : Host.Outcome State Fault Refusal :=
  .next (s.setFb (Vector.replicate Config.fbPixels false)).advance

/-- `Dxyn` (R136): coordinates and rows are read before anything is written; `VF` takes the collision flag. -/
def execDrw (x y : Reg) (n : Nat) (s : State) : Host.Outcome State Fault Refusal :=
  orRaise s (readBlock s.mem (dataBase s) n) fun rows =>
    let drawn := drawSprite s.fb (s.getV x) (s.getV y) rows
    ((s.setFb drawn.1).setV regF (flagByte drawn.2)).advance

end Sys2Proof.Machine
end

