-- ==== Sys2Proof/Machine/Flow.lean ====
section
/-! DEFINITION. Control transfer: RET, JP, CALL, the compare skips and the indexed jump (41_flow.md). -/

namespace Sys2Proof.Machine

/-- `00EE` (R85): back to the address on top of the call stack, nothing added; raises on an empty stack. -/
def execRet (s : State) : Host.Outcome State Fault Refusal :=
  if h : 0 < s.sp.val then .next ((s.setPc (s.top h)).pop) else .next (s.raise .stackUnderflow)

/-- `1nnn` (R86). -/
def execJp (nnn : Addr) (s : State) : Host.Outcome State Fault Refusal := .next (s.setPc nnn)

/-- `2nnn` (R87): pushes the address after the `CALL`; raises on a full stack. -/
def execCall (nnn : Addr) (s : State) : Host.Outcome State Fault Refusal :=
  if h : s.sp.val < 16 then .next ((s.push s.npc h).setPc nnn) else .next (s.raise .stackOverflow)

/-- `3xnn` (R88). -/
def execSeImm (x : Reg) (nn : Byte) (s : State) : Host.Outcome State Fault Refusal :=
  .next (s.skipIf (s.getV x == nn))

/-- `4xnn` (R89). -/
def execSneImm (x : Reg) (nn : Byte) (s : State) : Host.Outcome State Fault Refusal :=
  .next (s.skipIf (s.getV x != nn))

/-- `5xy0` (R90). -/
def execSeReg (x y : Reg) (s : State) : Host.Outcome State Fault Refusal :=
  .next (s.skipIf (s.getV x == s.getV y))

/-- `9xy0` (R91). -/
def execSneReg (x y : Reg) (s : State) : Host.Outcome State Fault Refusal :=
  .next (s.skipIf (s.getV x != s.getV y))

/-- `Bnnn` (R92): always `V[0]`. -/
def execJpV0 (nnn : Addr) (s : State) : Host.Outcome State Fault Refusal := .next (s.setPc (indexedTarget s nnn))

end Sys2Proof.Machine
end

