-- ==== Sys2Proof/Machine/IndexMem.lean ====
section
/-! DEFINITION. The address register and memory transfer (43_index_memory.md). No instruction changes `I` as a side
effect of an access. -/

namespace Sys2Proof.Machine

/-- `Annn` (R120). -/
def execLdI (nnn : Addr) (s : State) : Host.Outcome State Fault Refusal := .next (s.setI nnn).advance

/-- `Fx1E` (R121): wraps, no flag. -/
def execAddI (x : Reg) (s : State) : Host.Outcome State Fault Refusal := .next (s.setI (indexPlus s x)).advance

/-- `Fx29` (R122): the whole byte counts, no nibble mask. -/
def execLdF (x : Reg) (s : State) : Host.Outcome State Fault Refusal := .next (s.setI (glyphAddress (s.getV x))).advance

/-- `Fx33` (R123): the three decimal digits of `V[x]` at `I`, `I + 1`, `I + 2`. -/
def execLdB (x : Reg) (s : State) : Host.Outcome State Fault Refusal :=
  orRaise s (writeBlock s.mem (dataBase s) (decimalDigits (s.getV x))) fun m => (s.setMem m).advance

/-- `Fx55` (R124): `V[0]` to `V[x]` at `I` to `I + x`. -/
def execStoreRegs (x : Reg) (s : State) : Host.Outcome State Fault Refusal :=
  orRaise s (writeBlock s.mem (dataBase s) (registersUpTo s x)) fun m => (s.setMem m).advance

/-- `Fx65` (R125): `I` to `I + x` into `V[0]` to `V[x]`. -/
def execLoadRegs (x : Reg) (s : State) : Host.Outcome State Fault Refusal :=
  orRaise s (readBlock s.mem (dataBase s) (x.val + 1)) fun bs => (s.setFile (fillRegisters s.V 0 bs)).advance

end Sys2Proof.Machine
end

