-- ==== Sys2Proof/Machine/TimerKey.lean ====
section
/-! DEFINITION. Key skips, wait for a key, timer access (45_timer_key.md). None of them raises. -/

namespace Sys2Proof.Machine

/-- `Ex9E` (R150). -/
def execSkp (x : Reg) (s : State) : Host.Outcome State Fault Refusal :=
  .next (s.skipIf (pressed s.key (s.getV x)))

/-- `ExA1` (R151). -/
def execSknp (x : Reg) (s : State) : Host.Outcome State Fault Refusal :=
  .next (s.skipIf (!pressed s.key (s.getV x)))

/-- `Fx07` (R152). -/
def execLdVxDT (x : Reg) (s : State) : Host.Outcome State Fault Refusal := .next (s.setV x s.DT).advance

/-- `Fx0A` (R153): only sets the latch and advances; the keys are looked at by later steps. -/
def execLdVxK (x : Reg) (s : State) : Host.Outcome State Fault Refusal := .next (s.setWait (some x)).advance

/-- `Fx15` (R154). -/
def execLdDTVx (x : Reg) (s : State) : Host.Outcome State Fault Refusal := .next (s.setDT (s.getV x)).advance

/-- `Fx18` (R155). -/
def execLdSTVx (x : Reg) (s : State) : Host.Outcome State Fault Refusal := .next (s.setST (s.getV x)).advance

end Sys2Proof.Machine
end

