-- ==== Sys2Proof/Machine/Cycle.lean ====
section
/-! DEFINITION. One instruction cycle (40_step_cycle.md R70): fault latch, wait latch, fetch, decode, execute. -/

namespace Sys2Proof.Machine

/-- Decodes and executes a fetched word; an unmatched word is a no-op (R70, R76). -/
def runWord (w : OpWord) (s : State) : Host.Outcome State Fault Refusal :=
  match decodeWord w with
  | .ok i => exec i s
  | .error _ => .next (noOp s)

/-- The `step` of R70 in its order of tests. A raise is a next state whose latch holds the kind (R78); in the faulted
state the `step` fails with the latched kind and changes nothing (R71, entry 1). -/
def cycle (s : State) : Host.Outcome State Fault Refusal :=
  match s.fault with
  | some k => .fault k
  | none =>
    match s.wait with
    | some r => .next (waitCheck r s)
    | none =>
      match fetch s with
      | .error k => .next (s.raise k)
      | .ok w => runWord w s

end Sys2Proof.Machine
end

