-- ==== Sys2Proof/Machine/Step.lean ====
section
/-! DEFINITION. The step of the machine, and placing an instruction where it fetches. -/

namespace Sys2Proof.Machine

/-- `step(rand)` with `rand` taken from the state (40_step_cycle.md R70, entry 2). -/
def step (s : State) : Host.Outcome State Fault Refusal := cycle s

/-- `s` with an instruction of table bits `w` stored where `step` fetches its next instruction (entry 6). -/
def State.withFetchWord (s : State) (nbits w : Nat) : State := placeWord s (BitVec.ofNat 16 (w % 2 ^ nbits))

end Sys2Proof.Machine
end

