-- ==== Sys2Proof/Machine/HostOps.lean ====
section
/-! DEFINITION. The operations of the Machine other than `step`, and the runs a host makes of all of them
(46_host_operations.md, 70_reset_and_hazards.md R210 to R214). -/

namespace Sys2Proof.Machine

/-- The four error kinds (60_exceptions.md R183): the three a `step` raises, and the refusal of `loadProgram`. -/
inductive ErrorKind where
  | raised (k : Fault)
  | programTooLarge
  deriving DecidableEq, Repr

/-- What an operation gives back to the host (46_host_operations.md R170). -/
inductive Response where
  /-- `reset`, `tick60Hz` and `setInputState` return nothing. -/
  | nothing
  /-- `Ok` of `step` and `loadProgram`. -/
  | ok
  /-- `Fail(kind)`, with the reported address where the kind has one (60_exceptions.md R183). -/
  | fail (k : ErrorKind) (address : Option Nat)
  /-- The framebuffer read. -/
  | pixels (fb : Framebuffer)
  deriving DecidableEq, Repr

/-- The six operations of the interface with their inputs (46_host_operations.md R170). -/
inductive HostOp where
  | reset
  | loadProgram (rom : List Byte)
  | step (rand : Byte)
  | tick60Hz
  | setInputState (vector : Keys)
  | readFramebuffer
  deriving DecidableEq, Repr

/-- One timer down, floored at 0 (46_host_operations.md R165). -/
def countDown (t : Byte) : Byte := if t = 0 then 0 else t - 1

/-- `tick60Hz()`: both timers count down; the same in every state (R165). -/
def tick60Hz (s : State) : State := (s.setDT (countDown s.DT)).setST (countDown s.ST)

/-- `setInputState(vector)`: all sixteen keys at once; the same in every state (R166). -/
def setInputState (vector : Keys) (s : State) : State := s.setKey vector

/-- The framebuffer accessor (R167). -/
def readFramebuffer (s : State) : Framebuffer := s.fb

/-- `reset()`: the state of 10_state.md R26 whatever the state was (70_reset_and_hazards.md R210). The random source
belongs to the host, so the model's own two fields stay as they are (entry 2). -/
def hostReset (s : State) : State := { State.reset with randomInput := s.randomInput, draws := s.draws }

/-- The ROM bytes copied into memory from an address up (70_reset_and_hazards.md R211). -/
def copyRom (m : Memory) (a : Nat) : List Byte → Memory
  | [] => m
  | b :: bs => copyRom (Memory.setByte m a b) (a + 1) bs

/-- `loadProgram(rom)`: refused whole when the ROM is too long, nothing changed (R212); otherwise `reset` and the copy
to 0x200 (R211). -/
def loadProgram (rom : List Byte) (s : State) : Response × State :=
  if romWf rom then
    (.ok, (hostReset s).setMem (copyRom (hostReset s).mem Config.programStart rom))
  else (.fail .programTooLarge none, s)

/-- `Boot(rom)`: the state a program is launched in (70_reset_and_hazards.md R214); none for a ROM that is refused. -/
def boot (rom : List Byte) : Option State :=
  if romWf rom then some (loadProgram rom State.reset).2 else none

/-- What a `step` that left this state gave back: it failed exactly when the latch is set (40_step_cycle.md R70, R78,
entry 1). -/
def stepResponse (s : State) : Response :=
  match s.fault with
  | none => .ok
  | some k => .fail (.raised k) k.reportedAddress

/-- `step(rand)`: one cycle in which the random source supplies `rand`; the byte is offered to this `step` alone
(40_step_cycle.md R79). -/
def stepWith (rand : Byte) (s : State) : Response × State :=
  match step { s with randomInput := [rand] } with
  | .next t => (stepResponse t, { t with randomInput := s.randomInput })
  | .fault k => (.fail (.raised k) none, s)
  | .refused _ => (.nothing, s)

/-- One operation of the host, atomic (46_host_operations.md R169). -/
def perform : HostOp → State → Response × State
  | .reset, s => (.nothing, hostReset s)
  | .loadProgram rom, s => loadProgram rom s
  | .step rand, s => stepWith rand s
  | .tick60Hz, s => (.nothing, tick60Hz s)
  | .setInputState v, s => (.nothing, setInputState v s)
  | .readFramebuffer, s => (.pixels (readFramebuffer s), s)

/-- A run: any finite sequence of operations, their effects in that order (46_host_operations.md R169). -/
def performAll : List HostOp → State → List Response × State
  | [], s => ([], s)
  | op :: ops, s =>
    let (r, s1) := perform op s
    let (rs, s2) := performAll ops s1
    (r :: rs, s2)

end Sys2Proof.Machine
end

