-- ==== Sys2Proof/Safety.lean ====
section
/-! DEFINITION. What counts as a safe state and run, in the terms the claims use. -/

namespace Sys2Proof.Machine

/-- The invariant of the machine: memory is canonical and lies inside 0x000 to 0xFFF (10_state.md R23, R28), and the
two latches are never both set (40_step_cycle.md R70). The other ranges of R28 are carried by the types. -/
def State.Inv (s : State) : Prop := Memory.wf s.mem ∧ (s.fault = none ∨ s.wait = none)

/-- Neither faulted nor waiting: the next `step` fetches (40_step_cycle.md R70). -/
def State.running (s : State) : Prop := s.fault = none ∧ s.wait = none

/-- The next `step` fetches the word `w` and executes it. -/
def State.readyFor (s : State) (w : OpWord) : Prop := s.running ∧ fetch s = .ok w

/-- A finished program: the instruction at `pc` is a jump to itself (70_reset_and_hazards.md R215). -/
def State.finished (s : State) : Prop := s.readyFor (encodeWord (.jp s.pc))

/-- No error is latched (60_exceptions.md R188: nothing but `reset` and `loadProgram` leaves the faulted state). -/
def State.faultFree (s : State) : Prop := s.fault = none

end Sys2Proof.Machine
end

