-- ==== Sys2Proof/Certificates/Slice0/Obligations.lean ====
section
/-! DEFINITION. The statements for the provers, and the few notions they are stated in. Program-counter and register
values are stated over natural numbers, as the rules of spec/ give them. -/

namespace Sys2Proof.Claims

open Machine

/-! ## Frames -/

/-- The parts of the state besides the general registers and the program counter. -/
inductive Part where
  | index | stack | delay | sound | memory | screen | keys | wait | fault | random
  deriving DecidableEq, Repr

/-- A part is the same in two states; memory is the same when every address reads the same. -/
def Part.same (s t : State) : Part → Prop
  | .index => t.I = s.I
  | .stack => t.sp = s.sp ∧ t.stack = s.stack
  | .delay => t.DT = s.DT
  | .sound => t.ST = s.ST
  | .memory => ∀ a, Memory.byteAt t.mem a = Memory.byteAt s.mem a
  | .screen => t.fb = s.fb
  | .keys => t.key = s.key
  | .wait => t.wait = s.wait
  | .fault => t.fault = s.fault
  | .random => t.randomInput = s.randomInput ∧ t.draws = s.draws

/-- Every part but the listed ones is unchanged. -/
def KeepsParts (changed : List Part) (s t : State) : Prop := ∀ p, p ∉ changed → Part.same s t p

/-- Every register but the listed ones is unchanged. -/
def KeepsRegs (changed : List Reg) (s t : State) : Prop := ∀ z, z ∉ changed → t.getV z = s.getV z

/-- The program counter is a number, modulo 4096. -/
def PcIs (t : State) (n : Nat) : Prop := t.pc.toNat = n % 4096

/-- The outcome of an instruction. -/
abbrev Result := Host.Outcome State Fault Refusal

/-- The instruction completes; of the registers it changes only the listed ones, of the other parts only the listed
ones, and `pc` goes to `pc0 + 2`. -/
def Completes (r : Result) (s : State) (regs : List Reg) (parts : List Part) (effect : State → Prop) : Prop :=
  ∃ t, r = .next t ∧ effect t ∧ PcIs t (s.pc.toNat + 2) ∧ KeepsRegs regs s t ∧ KeepsParts parts s t

/-- The instruction completes and changes nothing but `pc`, which goes to `n` modulo 4096. -/
def OnlyJumps (r : Result) (s : State) (n : Nat) : Prop :=
  ∃ t, r = .next t ∧ PcIs t n ∧ KeepsRegs [] s t ∧ KeepsParts [] s t

/-- The instruction raises an error: the latch takes the kind and nothing else changes, `pc` included. That a raise is a
next state is the model's mapping (entry 1). -/
def RaisesOnly (k : Fault) (r : Result) (s : State) : Prop :=
  ∃ t, r = .next t ∧ t.fault = some k ∧ t.pc = s.pc ∧ KeepsRegs [] s t ∧ KeepsParts [.fault] s t

/-- A register's value as a number. -/
def reg (s : State) (x : Reg) : Nat := (s.getV x).toNat

/-! ## Words written from the formats of 30_encoding.md R52 -/

/-- `base | nnn`. -/
def wordA (base : Nat) (nnn : Addr) : OpWord := BitVec.ofNat 16 (base + nnn.toNat)

/-- `base | x << 8 | nn`; with `nn` 0 also format `X`. -/
def wordXK (base : Nat) (x : Reg) (nn : Byte) : OpWord := BitVec.ofNat 16 (base + x.val * 256 + nn.toNat)

/-- `base | x << 8`. -/
def wordX (base : Nat) (x : Reg) : OpWord := BitVec.ofNat 16 (base + x.val * 256)

/-- `base | x << 8 | y << 4`. -/
def wordXY (base : Nat) (x y : Reg) : OpWord := BitVec.ofNat 16 (base + x.val * 256 + y.val * 16)

/-- The word `w` is the encoding of the instruction `i`, both ways. -/
def Encodes (w : OpWord) (i : Instr) : Prop := decodeWord w = .ok i ∧ encodeWord i = w

/-- The unmatched words, (a) to (f) of 30_encoding.md R56, from the word's number alone. -/
def Unmatched (w : OpWord) : Prop :=
  let op := w.toNat
  (op / 4096 = 0 ∧ op ≠ 0x00E0 ∧ op ≠ 0x00EE) ∨
  (op / 4096 = 5 ∧ op % 16 ≠ 0) ∨
  (op / 4096 = 8 ∧ op % 16 ∈ [8, 9, 10, 11, 12, 13, 15]) ∨
  (op / 4096 = 9 ∧ op % 16 ≠ 0) ∨
  (op / 4096 = 14 ∧ op % 256 ∉ [0x9E, 0xA1]) ∨
  (op / 4096 = 15 ∧ op % 256 ∉ [0x07, 0x0A, 0x15, 0x18, 0x1E, 0x29, 0x33, 0x55, 0x65])

/-! ## Running instructions one after another -/

/-- Executes instructions one after another; none as soon as one does not complete or raises. -/
def runAll : List Instr → State → Option State
  | [], s => some s
  | i :: is, s =>
    match exec i s with
    | .next t => if t.fault = none then runAll is t else none
    | _ => none

/-- Instruction sequences in which every `CALL` has its `RET`. -/
inductive WellNested : List Instr → Prop where
  | nil : WellNested []
  | plain (i : Instr) (is : List Instr) (hr : i ≠ .ret) (hc : ∀ nnn, i ≠ .call nnn) (h : WellNested is) :
      WellNested (i :: is)
  | nest (nnn : Addr) (body is : List Instr) (hb : WellNested body) (h : WellNested is) :
      WellNested (.call nnn :: body ++ .ret :: is)

/-! ## Sprites -/

/-- Row `i`, column `j` of the sprite at `I`, bit 7 leftmost (44_display.md R137). -/
def SpriteBit (s : State) (i j : Nat) : Prop := (Memory.byteAt s.mem (dataBase s + i)).getLsbD (7 - j) = true

/-- Some set bit of the `n`-row sprite lands on pixel `q` (44_display.md R137 to R139). -/
def SpriteCovers (s : State) (x y : Reg) (n q : Nat) : Prop :=
  ∃ i j, i < n ∧ j < 8 ∧ SpriteBit s i j ∧ q = (reg s x + j) % 64 + (reg s y + i) % 32 * 64

/-- A pixel of the framebuffer. -/
def pixel (s : State) (q : Fin Config.fbPixels) : Bool := s.fb[q.val]

/-! ## Errors -/

/-- When an instruction raises, and what (41_flow.md R85, R87; 20_memory.md R36). -/
def RaisesWhen (i : Instr) (s : State) (k : Fault) : Prop :=
  (i = .ret ∧ s.sp.val = 0 ∧ k = .stackUnderflow) ∨
  ((∃ nnn, i = .call nnn) ∧ s.sp.val = 16 ∧ k = .stackOverflow) ∨
  ((∃ x y n, i = .drw x y n ∧ 1 ≤ n ∧ s.I.toNat + n - 1 > 0xFFF) ∧ k = .invalidAddress) ∨
  ((∃ x, i = .ldB x) ∧ s.I.toNat + 2 > 0xFFF ∧ k = .invalidAddress) ∨
  ((∃ x, (i = .storeRegs x ∨ i = .loadRegs x) ∧ s.I.toNat + x.val > 0xFFF) ∧ k = .invalidAddress)

/-! ## Two states that differ in one thing -/

/-- Two states that agree in everything but call-stack entries at `sp` and above. -/
def SameUpToDeadStack (s t : State) : Prop :=
  t = { s with stack := t.stack } ∧ ∀ j (h : j < 16), j < s.sp.val → t.stack[j] = s.stack[j]

/-- The next `step` of `s` fetches a word that decodes to `i`. -/
def NextInstrIs (s : State) (i : Instr) : Prop := ∃ w, s.readyFor w ∧ decodeWord w = .ok i

/-- `tick60Hz` performed `n` times. -/
def ticks : Nat → State → State
  | 0, s => s
  | n + 1, s => ticks n (tick60Hz s)

/-- From one state to another by `n` ticks and any instructions but `Fx15`, in any order. -/
inductive TimerRun : Nat → State → State → Prop where
  | nil (s : State) : TimerRun 0 s s
  | tick (n : Nat) (s t : State) (h : TimerRun n s t) : TimerRun (n + 1) s (tick60Hz t)
  | instr (i : Instr) (n : Nat) (s t u : State) (h : TimerRun n s t) (hi : ∀ x, i ≠ .ldDTVx x)
      (he : exec i t = .next u) : TimerRun n s u

/-- The machine's own twelve components of `t` are those of `s`; the model's random fields are left aside. -/
def SameMachine (s t : State) : Prop := t = { s with randomInput := t.randomInput, draws := t.draws }

end Sys2Proof.Claims

open Sys2Proof Sys2Proof.Machine Sys2Proof.Claims

/-! ## The step -/

/-- 40_step_cycle.md section 1: neither faulted nor waiting, and with two bytes at `pc` that decode to a well-formed
instruction, `step` is `exec` of that instruction; nothing is added around it, since every meaning writes `pc`
itself. -/
def Obligations.StepRunsDecodedInstruction : Prop :=
  ∀ (s : State) (i : Instr), s.fault = none → s.wait = none → s.pc.toNat < 0xFFF → i.wf = true →
    decode [Memory.byteAt s.mem s.pc.toNat, Memory.byteAt s.mem (s.pc.toNat + 1)] = .ok (i, []) →
    step s = exec i s

/-- 40_step_cycle.md section 3: when the word at `pc` is one of the unmatched words, `step` advances `pc` by 2 and changes
nothing else. Which words are unmatched is the spec's own inference (30_encoding.md section 3), and it rests on its
decision that every fixed digit counts (92_eei_decisions.md D7, entry 16). -/
def Obligations.UnmatchedWordOnlyAdvances : Prop :=
  ∀ (s : State) (w : OpWord), s.running → s.pc.toNat < 0xFFF →
    w = wordOfBytes (Memory.byteAt s.mem s.pc.toNat) (Memory.byteAt s.mem (s.pc.toNat + 1)) → Unmatched w →
    OnlyJumps (step s) s (s.pc.toNat + 2)

/-- 40_step_cycle.md section 1, the faulted state: every `step` fails with the latched kind and changes nothing,
whatever the random byte. The latch is the spec's own decision (92_eei_decisions.md D3); that `Fail` of the latched
kind is the outcome `fault` is the model's choice (entry 1), and that a repeated failure carries no address is the
model's reading (entry 11). -/
def Obligations.FaultedStepFailsUnchanged : Prop :=
  ∀ (s : State) (k : Fault) (rand : Byte), s.fault = some k →
    step s = .fault k ∧ stepWith rand s = (.fail (.raised k) none, s)

/-- 40_step_cycle.md section 1, the wait state: with a key pressed the lowest one goes into the latched register and
the latch clears; with none pressed nothing changes; `pc` never moves. The test on levels is the spec's own decision
(92_eei_decisions.md D8). -/
def Obligations.WaitingStepChecksKeys : Prop :=
  ∀ (s : State) (r : Reg), s.fault = none → s.wait = some r →
    (∀ k : Fin 16, s.key[k.val] = true → (∀ j : Fin 16, j < k → s.key[j.val] = false) →
      ∃ t, step s = .next t ∧ reg t r = k.val ∧ t.wait = none ∧ t.pc = s.pc ∧ KeepsRegs [r] s t ∧
        KeepsParts [.wait] s t) ∧
    ((∀ k : Fin 16, s.key[k.val] = false) → step s = .next s)

/-- 40_step_cycle.md section 2: at `pc = 0xFFF` the fetch raises `InvalidAddress` and does not wrap. The spec's own
decision (92_eei_decisions.md D1, D2). -/
def Obligations.FetchAtTopOfMemoryRaises : Prop :=
  ∀ s : State, s.running → s.pc.toNat = 0xFFF →
    RaisesOnly .invalidAddress (step s) s ∧
      ∀ rand, stepWith rand s =
        (.fail (.raised .invalidAddress) (some 0x1000), { s with fault := some .invalidAddress })

/-- 60_exceptions.md sections 1 and 2: every instruction answers a next state, and a `step` ends in the outcome `fault` in
the faulted state only. That an instruction which raises, whose `step` the spec lets return `Fail(kind)`, answers a next
state with the latch set, and that the outcome `fault` is the faulted state's answer alone, are the model's mapping
(entry 1). -/
def Obligations.StepFailsOnlyWhenFaulted : Prop :=
  (∀ (i : Instr) (s : State), ∃ t, exec i s = .next t) ∧
  ∀ s : State, (s.fault = none ∧ ∃ t, step s = .next t) ∨ ∃ k, s.fault = some k ∧ step s = .fault k

/-- 60_exceptions.md section 1: an instruction raises exactly when the spec says so, and then only the latch changes.
That nothing else changes, that the kind is latched, and that addresses do not wrap are the spec's own decisions
(92_eei_decisions.md D1, D2, D3). -/
def Obligations.InstructionsRaiseExactlyWhenSaid : Prop :=
  ∀ (i : Instr) (s : State), s.fault = none →
    (∀ k, RaisesWhen i s k → RaisesOnly k (exec i s) s) ∧
    ((∀ k, ¬ RaisesWhen i s k) → ∃ t, exec i s = .next t ∧ t.fault = none)

/-! ## Encoding -/

/-- 30_encoding.md section 2: decoding the encoding of a well-formed instruction gives it back, with every operand,
from the word and from bytes followed by any others. -/
def Obligations.DecodeOfEncodeIsIdentity : Prop :=
  ∀ i : Instr, i.wf = true →
    decodeWord (encodeWord i) = .ok i ∧ ∀ rest, decode (encode i ++ rest) = .ok (i, rest)

/-- 30_encoding.md section 2: decoding is an exact match against the 34 rows: a decoded word is the encoding of the
instruction and matches its row, every word that matches a row decodes to an instruction of that row, and no word
matches two rows. That every fixed digit counts is the spec's own decision (92_eei_decisions.md D7). -/
def Obligations.DecodingIsExactMatchOfOneRow : Prop :=
  (∀ (w : OpWord) (i : Instr), decodeWord w = .ok i →
    i.wf = true ∧ encodeWord i = w ∧ w &&& i.row.mask = i.row.value ∧ i.row ∈ opcodeMap) ∧
  (∀ (w : OpWord) (r : Row), r ∈ opcodeMap → w &&& r.mask = r.value → ∃ i, decodeWord w = .ok i ∧ i.row = r) ∧
  (∀ (w : OpWord) (r q : Row), r ∈ opcodeMap → q ∈ opcodeMap → w &&& r.mask = r.value → w &&& q.mask = q.value →
    r = q) ∧
  opcodeMap.length = 34

/-- 30_encoding.md section 3: the words the decoder rejects are exactly those of the list (a) to (f). The list is the
spec's own inference, and it rests on its decision that every fixed digit counts (92_eei_decisions.md D7, entry 16). -/
def Obligations.RejectedWordsAreTheListedOnes : Prop :=
  ∀ w : OpWord, (∃ e, decodeWord w = .error e) ↔ Unmatched w

/-- 30_encoding.md section 2 and 95_test_vectors.md: words written out by hand decode to the instructions they stand
for, one of every family. -/
def Obligations.SampleWordsDecodeAsWritten : Prop :=
  decodeWord 0x00E0 = .ok .cls ∧ decodeWord 0x00EE = .ok .ret ∧ decodeWord 0x1ABC = .ok (.jp 0xABC) ∧
  decodeWord 0x3142 = .ok (.seImm 1 0x42) ∧ decodeWord 0x8AB7 = .ok (.subn 10 11) ∧
  decodeWord 0xA2F0 = .ok (.ldI 0x2F0) ∧ decodeWord 0xC20F = .ok (.rnd 2 0x0F) ∧
  decodeWord 0xD012 = .ok (.drw 0 1 2) ∧ decodeWord 0xEAA1 = .ok (.sknp 10) ∧ decodeWord 0xF265 = .ok (.loadRegs 2)

/-! ## Control transfer -/

/-- R86: `JP nnn`, to any address with no check; a jump to itself stops the state from changing, and a jump to 0xFFF
makes the next `step` raise at its fetch. -/
def Obligations.JumpGoesToAddress : Prop :=
  ∀ (s : State) (nnn : Addr), Encodes (wordA 0x1000 nnn) (.jp nnn) ∧ OnlyJumps (exec (.jp nnn) s) s nnn.toNat ∧
    (nnn = s.pc → exec (.jp nnn) s = .next s) ∧
    (s.running → nnn.toNat = 0xFFF →
      ∃ t u, exec (.jp nnn) s = .next t ∧ step t = .next u ∧ u.fault = some .invalidAddress)

/-- R92: `JP V0, nnn`: always `V[0]`, modulo 4096. -/
def Obligations.IndexedJumpAddsV0 : Prop :=
  ∀ (s : State) (nnn : Addr),
    Encodes (wordA 0xB000 nnn) (.jpV0 nnn) ∧ OnlyJumps (exec (.jpV0 nnn) s) s (nnn.toNat + reg s 0)

/-- R88 to R91: the four compare skips: `pc0 + 4` when the condition holds, `pc0 + 2` when not, nothing else. -/
def Obligations.CompareSkipsMoveFourOrTwo : Prop :=
  ∀ (s : State) (x y : Reg) (nn : Byte),
    (Encodes (wordXK 0x3000 x nn) (.seImm x nn) ∧
      OnlyJumps (exec (.seImm x nn) s) s (s.pc.toNat + if reg s x = nn.toNat then 4 else 2)) ∧
    (Encodes (wordXK 0x4000 x nn) (.sneImm x nn) ∧
      OnlyJumps (exec (.sneImm x nn) s) s (s.pc.toNat + if reg s x ≠ nn.toNat then 4 else 2)) ∧
    (Encodes (wordXY 0x5000 x y) (.seReg x y) ∧
      OnlyJumps (exec (.seReg x y) s) s (s.pc.toNat + if reg s x = reg s y then 4 else 2)) ∧
    (Encodes (wordXY 0x9000 x y) (.sneReg x y) ∧
      OnlyJumps (exec (.sneReg x y) s) s (s.pc.toNat + if reg s x ≠ reg s y then 4 else 2))

/-- 41_flow.md, `CALL nnn`: with room on the stack the address after the `CALL` is pushed and `pc` goes to `nnn`; with
none it raises `StackOverflow`. That a raise changes only the latch is the spec's own decision (92_eei_decisions.md D2,
D3). -/
def Obligations.CallPushesReturnAddress : Prop :=
  ∀ (s : State) (nnn : Addr),
    (s.sp.val < 16 → ∃ t, exec (.call nnn) s = .next t ∧ t.pc = nnn ∧ t.sp.val = s.sp.val + 1 ∧
      (∀ j (h : j < 16), (t.stack[j]).toNat = if j = s.sp.val then (s.pc.toNat + 2) % 4096 else (s.stack[j]).toNat) ∧
      KeepsRegs [] s t ∧ KeepsParts [.stack] s t) ∧
    (s.sp.val = 16 → RaisesOnly .stackOverflow (exec (.call nnn) s) s)

/-- 41_flow.md, `RET`: with an address on the stack `pc` takes exactly it, `sp` goes down by 1 and no entry changes;
with none it raises `StackUnderflow`. That a raise changes only the latch is the spec's own decision
(92_eei_decisions.md D2, D3). -/
def Obligations.ReturnPopsAddress : Prop :=
  ∀ s : State,
    (∀ j (h : j < 16), s.sp.val = j + 1 → ∃ t, exec .ret s = .next t ∧ t.pc = s.stack[j] ∧ t.sp.val = j ∧
      t.stack = s.stack ∧ KeepsRegs [] s t ∧ KeepsParts [.stack] s t) ∧
    (s.sp.val = 0 → RaisesOnly .stackUnderflow (exec .ret s) s)

/-- 10_state.md section 3 and 41_flow.md: after a `CALL`, any well-nested instructions that complete without an error,
and a `RET`, execution is at the address after the `CALL` with the call stack as it was before it. -/
def Obligations.WellNestedCallReturnsBehindIt : Prop :=
  ∀ (s t : State) (nnn : Addr) (body : List Instr), s.fault = none → WellNested body →
    runAll (.call nnn :: body ++ [.ret]) s = some t →
    PcIs t (s.pc.toNat + 2) ∧ t.sp = s.sp ∧ ∀ j (h : j < 16), j < s.sp.val → t.stack[j] = s.stack[j]

/-- R180, R181: `StackOverflow` is raised by a `CALL` with `sp = 16` and by nothing else, `StackUnderflow` by a `RET`
with `sp = 0` and by nothing else, before anything is written; from an empty stack 16 consecutive `CALL`s succeed and the
17th fails. -/
def Obligations.StackErrorsComeFromCallAndReturnAlone : Prop :=
  ∀ s : State, s.fault = none →
    (∀ t, step s = .next t →
      (t.fault = some .stackOverflow ↔ s.sp.val = 16 ∧ ∃ nnn, NextInstrIs s (.call nnn)) ∧
      (t.fault = some .stackUnderflow ↔ s.sp.val = 0 ∧ NextInstrIs s .ret) ∧
      ∀ k, k ≠ .invalidAddress → t.fault = some k → RaisesOnly k (step s) s) ∧
    ∀ targets : List Addr, s.sp.val = 0 → targets.length = 16 →
      ∃ t, runAll (targets.map .call) s = some t ∧ t.sp.val = 16 ∧
        ∀ nnn, RaisesOnly .stackOverflow (exec (.call nnn) t) t

/-! ## Registers and arithmetic -/

/-- R100, R101, R102: load immediate, add immediate (no flag), load register. -/
def Obligations.LoadsAndAddImmediate : Prop :=
  ∀ (s : State) (x y : Reg) (nn : Byte),
    (Encodes (wordXK 0x6000 x nn) (.ldImm x nn) ∧
      Completes (exec (.ldImm x nn) s) s [x] [] fun t => reg t x = nn.toNat) ∧
    (Encodes (wordXK 0x7000 x nn) (.addImm x nn) ∧
      Completes (exec (.addImm x nn) s) s [x] [] fun t => reg t x = (reg s x + nn.toNat) % 256) ∧
    (Encodes (wordXY 0x8000 x y) (.ldReg x y) ∧
      Completes (exec (.ldReg x y) s) s [x] [] fun t => reg t x = reg s y)

/-- R103, R104, R105: the logic operations act bit by bit and write no flag. -/
def Obligations.LogicActsBitwiseWithoutFlag : Prop :=
  ∀ (s : State) (x y : Reg),
    (Encodes (wordXY 0x8001 x y) (.orReg x y) ∧ Completes (exec (.orReg x y) s) s [x] [] fun t =>
      ∀ b, (t.getV x).getLsbD b = ((s.getV x).getLsbD b || (s.getV y).getLsbD b)) ∧
    (Encodes (wordXY 0x8002 x y) (.andReg x y) ∧ Completes (exec (.andReg x y) s) s [x] [] fun t =>
      ∀ b, (t.getV x).getLsbD b = ((s.getV x).getLsbD b && (s.getV y).getLsbD b)) ∧
    (Encodes (wordXY 0x8003 x y) (.xorReg x y) ∧ Completes (exec (.xorReg x y) s) s [x] [] fun t =>
      ∀ b, (t.getV x).getLsbD b = ((s.getV x).getLsbD b ^^ (s.getV y).getLsbD b))

/-- 42_alu.md section 3, `8xy4`: the sum modulo 256 in `V[x]`, the carry in `VF` unless `x` is 15. That for `x = 15`
the result remains is the spec's own decision (92_eei_decisions.md D5). -/
def Obligations.AddRegisterSetsCarry : Prop :=
  ∀ (s : State) (x y : Reg), Encodes (wordXY 0x8004 x y) (.addReg x y) ∧
    Completes (exec (.addReg x y) s) s [x, regF] [] fun t =>
      reg t x = (reg s x + reg s y) % 256 ∧
      (x ≠ regF → reg t regF = if reg s x + reg s y > 255 then 1 else 0)

/-- 42_alu.md section 3, `8xy5` and `8xy7`: the difference modulo 256 in `V[x]`, no-borrow in `VF` unless `x` is 15.
That for `x = 15` the result remains is the spec's own decision (92_eei_decisions.md D5). -/
def Obligations.SubtractionsSetNoBorrow : Prop :=
  ∀ (s : State) (x y : Reg),
    (Encodes (wordXY 0x8005 x y) (.subReg x y) ∧ Completes (exec (.subReg x y) s) s [x, regF] [] fun t =>
      reg t x = (reg s x + 256 - reg s y) % 256 ∧ (x ≠ regF → reg t regF = if reg s x ≥ reg s y then 1 else 0)) ∧
    (Encodes (wordXY 0x8007 x y) (.subn x y) ∧ Completes (exec (.subn x y) s) s [x, regF] [] fun t =>
      reg t x = (reg s y + 256 - reg s x) % 256 ∧ (x ≠ regF → reg t regF = if reg s y ≥ reg s x then 1 else 0))

/-- 42_alu.md section 3, `8xy6` and `8xyE`: `V[x]` shifted by one whatever `y` is, the bit shifted out in `VF` unless
`x` is 15. That for `x = 15` the result remains is the spec's own decision (92_eei_decisions.md D5). -/
def Obligations.ShiftsMoveBitIntoFlag : Prop :=
  ∀ (s : State) (x y : Reg),
    (Encodes (wordXY 0x8006 x y) (.shr x y) ∧ Completes (exec (.shr x y) s) s [x, regF] [] fun t =>
      reg t x = reg s x / 2 ∧ (x ≠ regF → reg t regF = reg s x % 2)) ∧
    (Encodes (wordXY 0x800E x y) (.shl x y) ∧ Completes (exec (.shl x y) s) s [x, regF] [] fun t =>
      reg t x = reg s x * 2 % 256 ∧ (x ≠ regF → reg t regF = reg s x / 128))

/-- 42_alu.md section 4, `Cxnn`: the random byte under the mask, whichever byte the source supplies, and one byte of the
source is used up. The free value is the spec's own decision (92_eei_decisions.md D16) in the model's form (entry 2):
the claim holds for every value of it. -/
def Obligations.RandomByteUnderMask : Prop :=
  ∀ (s : State) (x : Reg) (nn : Byte), Encodes (wordXK 0xC000 x nn) (.rnd x nn) ∧
    (∀ rand rest, s.randomInput = rand :: rest → Completes (exec (.rnd x nn) s) s [x] [.random] fun t =>
      t.getV x = rand &&& nn ∧ t.randomInput = rest ∧ t.draws = s.draws + 1) ∧
    (s.randomInput = [] → Completes (exec (.rnd x nn) s) s [x] [.random] fun t =>
      t.getV x = Config.randomByte s.draws &&& nn ∧ t.randomInput = [] ∧ t.draws = s.draws + 1)

/-! ## Index register and memory -/

/-- R120, R121: `LD I, nnn` and `ADD I, Vx`, which wraps and writes no flag. -/
def Obligations.IndexRegisterLoadsAndAdds : Prop :=
  ∀ (s : State) (x : Reg) (nnn : Addr),
    (Encodes (wordA 0xA000 nnn) (.ldI nnn) ∧
      Completes (exec (.ldI nnn) s) s [] [.index] fun t => t.I.toNat = nnn.toNat) ∧
    (Encodes (wordX 0xF01E x) (.addI x) ∧
      Completes (exec (.addI x) s) s [] [.index] fun t => t.I.toNat = (s.I.toNat + reg s x) % 4096)

/-- 43_index_memory.md, `LD F, Vx`: `I` becomes `V[x] * 5` for every byte, with no nibble mask (the spec's own inference
from the table row). -/
def Obligations.GlyphAddressIsFiveTimesRegister : Prop :=
  ∀ (s : State) (x : Reg), Encodes (wordX 0xF029 x) (.ldF x) ∧
    Completes (exec (.ldF x) s) s [] [.index] fun t => t.I.toNat = reg s x * 5

/-- 43_index_memory.md, `LD B, Vx`: the three decimal digits at `I`, `I + 1`, `I + 2` and no other byte; out of range it
raises and writes nothing. That addresses do not wrap and nothing is written on a raise are the spec's own decisions
(92_eei_decisions.md D1, D2, D3). -/
def Obligations.BcdStoresThreeDigits : Prop :=
  ∀ (s : State) (x : Reg), Encodes (wordX 0xF033 x) (.ldB x) ∧
    (dataBase s + 2 ≤ 0xFFF → Completes (exec (.ldB x) s) s [] [.memory] fun t =>
      (Memory.byteAt t.mem (dataBase s)).toNat = reg s x / 100 ∧
      (Memory.byteAt t.mem (dataBase s + 1)).toNat = reg s x / 10 % 10 ∧
      (Memory.byteAt t.mem (dataBase s + 2)).toNat = reg s x % 10 ∧
      ∀ a, (a < dataBase s ∨ dataBase s + 2 < a) → Memory.byteAt t.mem a = Memory.byteAt s.mem a) ∧
    (dataBase s + 2 > 0xFFF → RaisesOnly .invalidAddress (exec (.ldB x) s) s)

/-- 43_index_memory.md, `LD [I], Vx`: `V[0]` to `V[x]` at `I` to `I + x` and no other byte, `I` unchanged; out of range
it raises and writes nothing. That addresses do not wrap and nothing is written on a raise are the spec's own decisions
(92_eei_decisions.md D1, D2, D3). -/
def Obligations.StoreRegistersWritesBlock : Prop :=
  ∀ (s : State) (x : Reg), Encodes (wordX 0xF055 x) (.storeRegs x) ∧
    (dataBase s + x.val ≤ 0xFFF → Completes (exec (.storeRegs x) s) s [] [.memory] fun t =>
      (∀ k : Reg, k ≤ x → Memory.byteAt t.mem (dataBase s + k.val) = s.getV k) ∧
      ∀ a, (a < dataBase s ∨ dataBase s + x.val < a) → Memory.byteAt t.mem a = Memory.byteAt s.mem a) ∧
    (dataBase s + x.val > 0xFFF → RaisesOnly .invalidAddress (exec (.storeRegs x) s) s)

/-- 43_index_memory.md, `LD Vx, [I]`: the bytes at `I` to `I + x` into `V[0]` to `V[x]`, higher registers, `I` and memory
unchanged; out of range it raises and loads nothing. That addresses do not wrap and nothing is loaded on a raise are the
spec's own decisions (92_eei_decisions.md D1, D2, D3). -/
def Obligations.LoadRegistersReadsBlock : Prop :=
  ∀ (s : State) (x : Reg), Encodes (wordX 0xF065 x) (.loadRegs x) ∧
    (dataBase s + x.val ≤ 0xFFF → ∃ t, exec (.loadRegs x) s = .next t ∧
      (∀ k : Reg, t.getV k = if k ≤ x then Memory.byteAt s.mem (dataBase s + k.val) else s.getV k) ∧
      PcIs t (s.pc.toNat + 2) ∧ KeepsParts [] s t) ∧
    (dataBase s + x.val > 0xFFF → RaisesOnly .invalidAddress (exec (.loadRegs x) s) s)

/-- 43_index_memory.md, the round trip: `Fx55`, then anything that keeps memory and `I` (the registers may change), then
`Fx65` with the same `x`, and `V[0]` to `V[x]` are what they were before the `Fx55`. -/
def Obligations.StoreThenLoadRestoresRegisters : Prop :=
  ∀ (s t u v : State) (x : Reg), dataBase s + x.val ≤ 0xFFF → exec (.storeRegs x) s = .next t →
    u.mem = t.mem → u.I = t.I → exec (.loadRegs x) u = .next v → ∀ k : Reg, k ≤ x → v.getV k = s.getV k

/-- 20_memory.md section 4, self-modifying code (the spec's own inference): when `Fx55` stores over the instruction
right behind it, the next `step` executes the stored bytes. -/
def Obligations.StoredCodeIsExecutedNext : Prop :=
  ∀ (s : State) (x : Reg) (i : Instr), s.readyFor (encodeWord (.storeRegs x)) → 1 ≤ x.val →
    dataBase s = s.pc.toNat + 2 → dataBase s + x.val ≤ 0xFFF →
    decodeWord (wordOfBytes (s.getV 0) (s.getV 1)) = .ok i →
    ∃ t, step s = .next t ∧ t.pc.toNat = dataBase s ∧ step t = exec i t

/-! ## Display -/

/-- R135: `CLS` unsets every pixel and leaves `VF` and everything else alone; a sprite drawn afterwards does not
collide. -/
def Obligations.ClearScreenUnsetsEveryPixel : Prop :=
  ∀ s : State, Encodes 0x00E0 .cls ∧
    Completes (exec .cls s) s [] [.screen] fun t =>
      (∀ q, pixel t q = false) ∧
      ∀ x y n, n ≤ 15 → dataBase t + n ≤ 0x1000 → ∃ u, exec (.drw x y n) t = .next u ∧ reg u regF = 0

/-- 44_display.md sections 1 and 2, `Dxyn`: exactly the pixels under a set sprite bit flip, with wrap-around, and `VF`
says whether one of them was set; coordinates are read before `VF` is written. That visiting order does not matter is the
spec's own inference; that addresses do not wrap is its decision (92_eei_decisions.md D1). -/
def Obligations.DrawFlipsCoveredPixels : Prop :=
  ∀ (s : State) (x y : Reg) (n : Nat), n ≤ 15 → dataBase s + n ≤ 0x1000 →
    Encodes (wordXY (0xD000 + n) x y) (.drw x y n) ∧
    Completes (exec (.drw x y n) s) s [regF] [.screen] fun t =>
      (∀ q, SpriteCovers s x y n q.val → pixel t q = !pixel s q) ∧
      (∀ q, ¬ SpriteCovers s x y n q.val → pixel t q = pixel s q) ∧
      ((∃ q, SpriteCovers s x y n q.val ∧ pixel s q = true) → reg t regF = 1) ∧
      ((¬ ∃ q, SpriteCovers s x y n q.val ∧ pixel s q = true) → reg t regF = 0)

/-- 44_display.md section 2, properties (a) and (b): drawing the same sprite from the same place twice restores the
framebuffer, and the second draw reports a collision exactly when some set bit of the sprite landed on a pixel that was
unset before the first. -/
def Obligations.DrawTwiceRestoresScreen : Prop :=
  ∀ (s t u v : State) (x y : Reg) (n : Nat), n ≤ 15 → dataBase s + n ≤ 0x1000 → exec (.drw x y n) s = .next t →
    u.fb = t.fb → u.I = s.I → u.mem = s.mem → u.getV x = s.getV x → u.getV y = s.getV y →
    exec (.drw x y n) u = .next v →
    v.fb = s.fb ∧ (reg v regF = 1 ↔ ∃ q, SpriteCovers s x y n q.val ∧ pixel s q = false)

/-! ## Keys and timers -/

/-- 45_timer_key.md, `SKP Vx` and `SKNP Vx`: skip on a pressed, on a not pressed key; a number above 15 is a key that is
not pressed (the spec's own decision, 92_eei_decisions.md D6). -/
def Obligations.KeySkipsFollowInputVector : Prop :=
  ∀ (s : State) (x : Reg),
    Encodes (wordX 0xE09E x) (.skp x) ∧ Encodes (wordX 0xE0A1 x) (.sknp x) ∧
    (∀ k : Fin 16, reg s x = k.val →
      OnlyJumps (exec (.skp x) s) s (s.pc.toNat + if s.key[k.val] then 4 else 2) ∧
      OnlyJumps (exec (.sknp x) s) s (s.pc.toNat + if s.key[k.val] then 2 else 4)) ∧
    (reg s x ≥ 16 → OnlyJumps (exec (.skp x) s) s (s.pc.toNat + 2) ∧
      OnlyJumps (exec (.sknp x) s) s (s.pc.toNat + 4))

/-- R154, R155: `LD DT, Vx` and `LD ST, Vx`. Nothing else makes `DT` go up, a 0 written stays 0, and no instruction
reads `ST`: with another sound timer it does the same to everything else. -/
def Obligations.TimersAreSetFromRegister : Prop :=
  ∀ (s : State) (x : Reg),
    (∀ i t, exec i s = .next t → t.DT.toNat > s.DT.toNat → ∃ y, i = .ldDTVx y) ∧
    (∀ t n, exec (.ldDTVx x) s = .next t → reg s x = 0 → (ticks n t).DT = 0) ∧
    (∀ i t v, exec i s = .next t → ∃ u, exec i (s.setST v) = .next u ∧ u.setST 0 = t.setST 0) ∧
    (Encodes (wordX 0xF015 x) (.ldDTVx x) ∧
      Completes (exec (.ldDTVx x) s) s [] [.delay] fun t => t.DT.toNat = reg s x) ∧
    (Encodes (wordX 0xF018 x) (.ldSTVx x) ∧
      Completes (exec (.ldSTVx x) s) s [] [.sound] fun t => t.ST.toNat = reg s x)

/-- R152: `LD Vx, DT` reads the delay timer and leaves it alone; its value is the last one written by `Fx15` minus the
ticks since, floored at 0, whatever other instructions ran in between. -/
def Obligations.DelayTimerReadsValueMinusTicks : Prop :=
  ∀ (s : State) (x y : Reg) (n : Nat),
    (Encodes (wordX 0xF007 x) (.ldVxDT x) ∧
      Completes (exec (.ldVxDT x) s) s [x] [] fun t => reg t x = s.DT.toNat) ∧
    ∀ t u, exec (.ldDTVx x) s = .next t → TimerRun n t u →
      ∃ w, exec (.ldVxDT y) u = .next w ∧ reg w y = reg s x - n

/-- 45_timer_key.md, `LD Vx, K`: sets the wait latch to `x` and advances, without looking at the keys. That the default
advance applies is the spec's own inference. -/
def Obligations.WaitForKeySetsLatch : Prop :=
  ∀ (s : State) (x : Reg), Encodes (wordX 0xF00A x) (.ldVxK x) ∧
    Completes (exec (.ldVxK x) s) s [] [.wait] fun t => t.wait = some x

/-! ## Operations of the host -/

/-- 46_host_operations.md sections 1 and 2: `tick60Hz` takes each timer down by 1 to a floor of 0 and `setInputState`
replaces all keys; neither changes anything else, in any state (that they act in the wait and faulted states is the
spec's own decision, 92_eei_decisions.md D4). -/
def Obligations.TickAndInputChangeOnlyTheirParts : Prop :=
  ∀ (s : State) (v : Keys),
    ((tick60Hz s).DT.toNat = s.DT.toNat - 1 ∧ (tick60Hz s).ST.toNat = s.ST.toNat - 1 ∧ (tick60Hz s).pc = s.pc ∧
      KeepsRegs [] s (tick60Hz s) ∧ KeepsParts [.delay, .sound] s (tick60Hz s)) ∧
    ((setInputState v s).key = v ∧ (setInputState v s).pc = s.pc ∧
      KeepsRegs [] s (setInputState v s) ∧ KeepsParts [.keys] s (setInputState v s))

/-- 10_state.md section 9: what reset leaves. The values of `stack`, `fb`, `key`, `wait` and `fault` are the spec's own
decision (92_eei_decisions.md D11); the font bytes are a parameter (entry 3). -/
def Obligations.ResetLeavesListedValues : Prop :=
  (∀ x, reg State.reset x = 0) ∧ State.reset.I = 0 ∧ State.reset.pc.toNat = 0x200 ∧ State.reset.sp.val = 0 ∧
  (∀ j (h : j < 16), State.reset.stack[j] = 0) ∧ State.reset.DT = 0 ∧ State.reset.ST = 0 ∧
  (∀ a (h : a < 80), some (Memory.byteAt State.reset.mem a) = Config.font[a]?) ∧
  (∀ a, 80 ≤ a → Memory.byteAt State.reset.mem a = 0) ∧
  (∀ q, pixel State.reset q = false) ∧ (∀ k (h : k < 16), State.reset.key[k] = false) ∧
  State.reset.wait = none ∧ State.reset.fault = none

/-- 70_reset_and_hazards.md section 1: a ROM of up to 3584 bytes is copied to 0x200 over the reset state, from any state;
a longer one is refused and nothing changes. That loading resets first and a refused load changes nothing are the spec's
own decisions (92_eei_decisions.md D10). The canonical form that memory has after the load is the model's own
representation (entry 5), and so are the random fields that the load leaves aside (entry 2). -/
def Obligations.LoadProgramCopiesOrRefuses : Prop :=
  ∀ (rom : List Byte) (s : State),
    (rom.length ≤ 3584 → ∃ t, loadProgram rom s = (.ok, t) ∧
      SameMachine { State.reset with mem := t.mem } t ∧ Memory.wf t.mem ∧
      (∀ j, j < rom.length → some (Memory.byteAt t.mem (0x200 + j)) = rom[j]?) ∧
      ∀ a, (a < 0x200 ∨ 0x200 + rom.length ≤ a) → Memory.byteAt t.mem a = Memory.byteAt State.reset.mem a) ∧
    (rom.length > 3584 → loadProgram rom s = (.fail .programTooLarge none, s))

/-- 60_exceptions.md section 1: once a kind is latched, no sequence of operations without `reset` and without a load that
succeeds changes anything but the timers and the keys, and every `step` in it fails with that kind. The sticky latch is
the spec's own decision (92_eei_decisions.md D3); that a repeated failure carries no address is the model's reading
(entry 11). -/
def Obligations.LatchedFaultStaysUntilResetOrLoad : Prop :=
  ∀ (ops : List HostOp) (s : State) (k : Fault), s.fault = some k →
    (∀ op ∈ ops, op ≠ .reset ∧ ∀ rom, op = .loadProgram rom → rom.length > 3584) →
    let out := performAll ops s
    out.2.pc = s.pc ∧ KeepsRegs [] s out.2 ∧ KeepsParts [.delay, .sound, .keys] s out.2 ∧
      ∀ (n : Nat) (rand : Byte), ops[n]? = some (HostOp.step rand) → out.1[n]? = some (Response.fail (.raised k) none)

/-- 70_reset_and_hazards.md section 2: a finished program (a jump to itself at `pc`) stays as it is at every `step`,
whatever the random byte. The notion is the spec's own decision (92_eei_decisions.md D21). -/
def Obligations.FinishedProgramStays : Prop :=
  ∀ (s : State) (rand : Byte), s.finished → step s = .next s ∧ stepWith rand s = (.ok, s)

/-! ## The whole machine -/

/-- 10_state.md sections 9 and 10: the invariant of `StepKeepsInvariant` holds at reset. The canonical form is the model's
own representation (entry 5). -/
def Obligations.InvariantHoldsAtReset : Prop := State.reset.Inv

/-- 10_state.md section 10 and 40_step_cycle.md section 1: from every state that meets it, a `step` keeps the invariant:
memory in canonical form within 0x000 to 0xFFF, and the fault and wait latches never both set. The canonical form is the
model's own representation (entry 5); that the two latches are never both set is the spec's own inference. -/
def Obligations.StepKeepsInvariant : Prop := ∀ s t : State, s.Inv → step s = .next t → t.Inv

/-- 10_state.md section 10, 40_step_cycle.md section 1 and 46_host_operations.md section 5: every sequence of operations of
the host keeps the invariant. The canonical form in it is the model's own representation (entry 5); that the two latches
are never both set is the spec's own inference (40_step_cycle.md section 1). -/
def Obligations.EveryRunKeepsInvariant : Prop := ∀ (ops : List HostOp) (s : State), s.Inv → (performAll ops s).2.Inv

/-- 10_state.md sections 3 to 10: which instructions can change which part: `key` none, `I` only `Annn`, `Fx1E`, `Fx29`,
the timers only `Fx15` and `Fx18`, the framebuffer only `00E0` and `Dxyn`, memory only `Fx33` and `Fx55`, the stack only
`2nnn` and `00EE`, the wait latch only `Fx0A`, the random source only `Cxnn`. The
fields of the random source are the model's own (entry 2). -/
def Obligations.PartsChangeOnlyByTheirInstructions : Prop :=
  ∀ (i : Instr) (s t : State), exec i s = .next t →
    t.key = s.key ∧
    (t.I ≠ s.I → (∃ nnn, i = .ldI nnn) ∨ (∃ x, i = .addI x) ∨ ∃ x, i = .ldF x) ∧
    (t.DT ≠ s.DT → ∃ x, i = .ldDTVx x) ∧
    (t.ST ≠ s.ST → ∃ x, i = .ldSTVx x) ∧
    (t.fb ≠ s.fb → i = .cls ∨ ∃ x y n, i = .drw x y n) ∧
    (t.mem ≠ s.mem → (∃ x, i = .ldB x) ∨ ∃ x, i = .storeRegs x) ∧
    (t.sp ≠ s.sp ∨ t.stack ≠ s.stack → i = .ret ∨ ∃ nnn, i = .call nnn) ∧
    (t.wait ≠ s.wait → ∃ x, i = .ldVxK x) ∧
    (t.draws ≠ s.draws ∨ t.randomInput ≠ s.randomInput → ∃ x nn, i = .rnd x nn)

/-- 10_state.md section 2: `VF` changes only by the six flag instructions or when it is the destination. -/
def Obligations.FlagRegisterChangesOnlyWhenNamed : Prop :=
  ∀ (i : Instr) (s t : State), exec i s = .next t → t.getV regF ≠ s.getV regF →
    (∃ x y, i = .addReg x y ∨ i = .subReg x y ∨ i = .shr x y ∨ i = .subn x y ∨ i = .shl x y) ∨
    (∃ x y n, i = .drw x y n) ∨
    (∃ nn, i = .ldImm regF nn ∨ i = .addImm regF nn ∨ i = .rnd regF nn) ∨
    (∃ y, i = .ldReg regF y ∨ i = .orReg regF y ∨ i = .andReg regF y ∨ i = .xorReg regF y) ∨
    i = .ldVxDT regF ∨ i = .loadRegs regF

/-- 10_state.md section 3 (the spec's own inference): call-stack entries at `sp` and above cannot be observed: two states
that differ only there step alike, to states that again differ only there. -/
def Obligations.DeadStackEntriesCannotBeObserved : Prop :=
  ∀ s t : State, SameUpToDeadStack s t →
    (∀ s', step s = .next s' → ∃ t', step t = .next t' ∧ SameUpToDeadStack s' t') ∧
    (∀ k, step s = .fault k → step t = .fault k)

/-- 40_step_cycle.md section 3: a `step` that does not execute `Cxnn` does not depend on the random source and leaves it
alone. The fields of the random source are the model's own (entry 2). -/
def Obligations.OnlyRndDependsOnRandomSource : Prop :=
  ∀ (s t : State) (bytes : List Byte) (n : Nat), (∀ x nn, ¬ NextInstrIs s (.rnd x nn)) → step s = .next t →
    step { s with randomInput := bytes, draws := n } = .next { t with randomInput := bytes, draws := n }

/-- 10_state.md section 5: the keys are read only by `Ex9E`, `ExA1` and a wait-state `step`: any other `step` does the
same whatever the input vector is. -/
def Obligations.OnlyKeyInstructionsDependOnKeys : Prop :=
  ∀ (s t : State) (v : Keys), s.wait = none → (∀ x, ¬ NextInstrIs s (.skp x) ∧ ¬ NextInstrIs s (.sknp x)) →
    step s = .next t → step { s with key := v } = .next { t with key := v }
end

