-- ==== Sys2Proof/Laws/Display.lean ====
section
/-! SUPPORT. The sprite renderer: what a sequence of plotted pixels does when no pixel is named twice, and that the
pixels of one sprite are distinct (44_display.md R140). -/

namespace Sys2Proof.Machine

/-- The pixels of one sprite row, each with its bit. -/
def rowPlan (column row : Nat) (bits : Byte) : List (Fin Config.fbPixels × Bool) :=
  (List.range 8).map fun j => (pixelIndex (column + j) row, spriteBit bits j)

/-- The pixels of a sprite, each with its bit, in drawing order. -/
def spritePlan (column row : Nat) : List Byte → List (Fin Config.fbPixels × Bool)
  | [] => []
  | bits :: rest => rowPlan column row bits ++ spritePlan column (row + 1) rest

/-- Plots pixels one after another. -/
def plotAll (p : Framebuffer × Bool) (plan : List (Fin Config.fbPixels × Bool)) : Framebuffer × Bool :=
  plan.foldl (fun p c => plotBit p c.1 c.2) p

theorem plotRows_eq_plotAll (p : Framebuffer × Bool) (column row : Nat) (rows : List Byte) :
    plotRows p column row rows = plotAll p (spritePlan column row rows) := by
  induction rows generalizing p row with
  | nil => rfl
  | cons bits rest ih =>
    rw [plotRows, ih, spritePlan, plotAll, plotAll, List.foldl_append]
    rfl

/-- When no pixel is named twice, a pixel ends XORed with its bit, one that is not named stays, and the collision flag
is set exactly when a set bit lands on a pixel that was set before. -/
theorem plotAll_spec (plan : List (Fin Config.fbPixels × Bool)) (p : Framebuffer × Bool)
    (h : (plan.map Prod.fst).Nodup) :
    (∀ q : Fin Config.fbPixels, (plotAll p plan).1[q.val] = (p.1[q.val] ^^ decide ((q, true) ∈ plan))) ∧
    ((plotAll p plan).2 = true ↔ p.2 = true ∨ ∃ q : Fin Config.fbPixels, (q, true) ∈ plan ∧ p.1[q.val] = true) := by
  induction plan generalizing p with
  | nil => simp [plotAll]
  | cons c plan ih =>
    obtain ⟨q0, b⟩ := c
    obtain ⟨hq0, hnd⟩ := List.nodup_cons.mp h
    have hne : ∀ b', (q0, b') ∉ plan := fun b' hm => hq0 (List.mem_map.mpr ⟨_, hm, rfl⟩)
    obtain ⟨h1, h2⟩ := ih (plotBit p q0 b) hnd
    have hother : ∀ q : Fin Config.fbPixels, q ≠ q0 → (plotBit p q0 b).1[q.val] = p.1[q.val] := by
      intro q hq
      have hv : q0.val ≠ q.val := fun e => hq (Fin.ext e.symm)
      simp [plotBit, hv]
    have hfirst : (plotBit p q0 b).1[q0.val] = (p.1[q0.val] ^^ b) := by simp [plotBit]
    constructor
    · intro q
      show (plotAll (plotBit p q0 b) plan).1[q.val] = _
      rw [h1 q]
      by_cases hq : q = q0
      · subst hq
        rw [hfirst]
        cases b <;> simp [hne]
      · rw [hother q hq]
        simp [hq]
    · show (plotAll (plotBit p q0 b) plan).2 = true ↔ _
      rw [h2]
      have hflag : (plotBit p q0 b).2 = (p.2 || (p.1[q0.val] && b)) := rfl
      rw [hflag, Bool.or_eq_true, Bool.and_eq_true]
      constructor
      · rintro ((hp | ⟨hs, hb⟩) | ⟨q, hm, hs⟩)
        · exact .inl hp
        · exact .inr ⟨q0, by simp [hb], hs⟩
        · have hq : q ≠ q0 := fun e => hne true (e ▸ hm)
          exact .inr ⟨q, List.mem_cons_of_mem _ hm, by rwa [hother q hq] at hs⟩
      · rintro (hp | ⟨q, hm, hs⟩)
        · exact .inl (.inl hp)
        · rcases List.mem_cons.mp hm with e | hm
          · obtain ⟨rfl, rfl⟩ := Prod.mk.inj e
            exact .inl (.inr ⟨hs, rfl⟩)
          · have hq : q ≠ q0 := fun e => hne true (e ▸ hm)
            exact .inr ⟨q, hm, by rwa [hother q hq]⟩

theorem mem_spritePlan (column row : Nat) (rows : List Byte) (q : Fin Config.fbPixels) (b : Bool) :
    (q, b) ∈ spritePlan column row rows ↔ ∃ i j, i < rows.length ∧ j < 8 ∧
      spriteBit (rows.getD i 0) j = b ∧ q = pixelIndex (column + j) (row + i) := by
  induction rows generalizing row with
  | nil => simp [spritePlan]
  | cons bits rest ih =>
    rw [spritePlan, List.mem_append, ih]
    constructor
    · rintro (hm | ⟨i, j, hi, hj, hb, hq⟩)
      · simp only [rowPlan, List.mem_map, List.mem_range, Prod.mk.injEq] at hm
        obtain ⟨j, hj, hq, hb⟩ := hm
        exact ⟨0, j, by simp, hj, hb, hq.symm⟩
      · exact ⟨i + 1, j, by simpa using hi, hj, hb, by rw [hq, Nat.add_right_comm, Nat.add_assoc]⟩
    · rintro ⟨i, j, hi, hj, hb, hq⟩
      cases i with
      | zero =>
        refine .inl ?_
        simp only [rowPlan, List.mem_map, List.mem_range, Prod.mk.injEq]
        exact ⟨j, hj, hq.symm, hb⟩
      | succ i =>
        exact .inr ⟨i, j, by simpa using hi, hj, hb, by rw [hq, Nat.add_right_comm, Nat.add_assoc]⟩

theorem pixelIndex_inj (column row i j i' j' : Nat) (hi : i < 32) (hj : j < 64) (hi' : i' < 32) (hj' : j' < 64)
    (h : pixelIndex (column + j) (row + i) = pixelIndex (column + j') (row + i')) : i = i' ∧ j = j' := by
  have h' := congrArg Fin.val h
  simp only [pixelIndex] at h'
  omega

/-- No pixel of a sprite of at most 32 rows is named twice: the wrap never folds the sprite onto itself (R140). -/
theorem spritePlan_nodup (column row : Nat) (rows : List Byte) (h : rows.length ≤ 32) :
    ((spritePlan column row rows).map Prod.fst).Nodup := by
  induction rows generalizing row with
  | nil => simp [spritePlan]
  | cons bits rest ih =>
    simp only [List.length_cons] at h
    rw [spritePlan, List.map_append, List.nodup_append]
    refine ⟨?_, ih _ (by omega), ?_⟩
    · simp only [rowPlan, List.map_map]
      refine List.Nodup.map_on ?_ List.nodup_range
      intro j hj j' hj' he
      simp only [List.mem_range] at hj hj'
      exact (pixelIndex_inj column row 0 j 0 j' (by omega) (by omega) (by omega) (by omega) he).2
    · intro q hq q' hq' e
      subst e
      simp only [rowPlan, List.map_map, List.mem_map, List.mem_range, Function.comp_apply] at hq
      obtain ⟨j, hj, rfl⟩ := hq
      obtain ⟨⟨q', b⟩, hm, he⟩ := List.mem_map.mp hq'
      obtain ⟨i', j', hi', hj', -, hq''⟩ := (mem_spritePlan _ _ _ _ _).mp hm
      simp only at he
      have h2 : pixelIndex (column + j) (row + 0) = pixelIndex (column + j') (row + (1 + i')) := by
        rw [← Nat.add_assoc row 1 i', ← hq'', he]; rfl
      have := (pixelIndex_inj column row 0 j (1 + i') j' (by omega) (by omega) (by omega) (by omega) h2).1
      omega

/-- All `drawSprite` does: the pixels under set sprite bits flip, the others stay, and the flag says whether one of those
was set before. -/
theorem drawSprite_spec (fb : Framebuffer) (x0 y0 : Byte) (rows : List Byte) (h : rows.length ≤ 32) :
    (∀ q : Fin Config.fbPixels, (drawSprite fb x0 y0 rows).1[q.val] =
      (fb[q.val] ^^ decide ((q, true) ∈ spritePlan x0.toNat y0.toNat rows))) ∧
    ((drawSprite fb x0 y0 rows).2 = true ↔
      ∃ q : Fin Config.fbPixels, (q, true) ∈ spritePlan x0.toNat y0.toNat rows ∧ fb[q.val] = true) := by
  have := plotAll_spec (spritePlan x0.toNat y0.toNat rows) (fb, false) (spritePlan_nodup _ _ _ h)
  rw [drawSprite, plotRows_eq_plotAll]
  simpa using this

end Sys2Proof.Machine
end

