-- ==== Sys2Proof/Laws/Encoding.lean ====
section
/-! SUPPORT. The fields of an encoded word, and the bytes of a word. -/

namespace Sys2Proof

theorem regBits_toNat (x : Reg) : (BitVec.ofNat 4 x.val).toNat = x.val := by
  have := x.isLt
  simp only [BitVec.toNat_ofNat]; omega

/-! ## Words as numbers -/

theorem encodeA_toNat (m : BitVec 4) (a : Addr) : (encodeA m a).toNat = m.toNat * 4096 + a.toNat := by
  have := a.isLt
  simp only [encodeA, BitVec.toNat_append, Nat.shiftLeft_eq]
  rw [← Nat.shiftLeft_eq, ← Nat.shiftLeft_add_eq_or_of_lt this, Nat.shiftLeft_eq]

theorem encodeXK_toNat (m : BitVec 4) (x : Reg) (nn : Byte) :
    (encodeXK m x nn).toNat = m.toNat * 4096 + x.val * 256 + nn.toNat := by
  have h1 := nn.isLt
  have h2 := (BitVec.ofNat 4 x.val).isLt
  simp only [encodeXK, BitVec.toNat_append]
  rw [← Nat.shiftLeft_add_eq_or_of_lt h1, ← Nat.shiftLeft_add_eq_or_of_lt h2, regBits_toNat,
    Nat.shiftLeft_eq, Nat.shiftLeft_eq]
  omega

theorem encodeXYN_toNat (m : BitVec 4) (x y : Reg) (n : BitVec 4) :
    (encodeXYN m x y n).toNat = m.toNat * 4096 + x.val * 256 + y.val * 16 + n.toNat := by
  have h1 := n.isLt
  have h2 := (BitVec.ofNat 4 x.val).isLt
  have h3 := (BitVec.ofNat 4 y.val).isLt
  simp only [encodeXYN, BitVec.toNat_append]
  rw [← Nat.shiftLeft_add_eq_or_of_lt h1, ← Nat.shiftLeft_add_eq_or_of_lt h3, ← Nat.shiftLeft_add_eq_or_of_lt h2,
    regBits_toNat, regBits_toNat, Nat.shiftLeft_eq, Nat.shiftLeft_eq, Nat.shiftLeft_eq]
  omega

/-! ## Fields as numbers -/

theorem majorField_toNat (w : OpWord) : (majorField w).toNat = w.toNat / 4096 := by
  have := w.isLt
  simp only [majorField, BitVec.extractLsb'_toNat, Nat.shiftRight_eq_div_pow]; omega

theorem xField_val (w : OpWord) : (xField w).val = w.toNat / 256 % 16 := by
  simp only [xField, BitVec.extractLsb'_toNat, Nat.shiftRight_eq_div_pow]

theorem yField_val (w : OpWord) : (yField w).val = w.toNat / 16 % 16 := by
  simp only [yField, BitVec.extractLsb'_toNat, Nat.shiftRight_eq_div_pow]

theorem nField_toNat (w : OpWord) : (nField w).toNat = w.toNat % 16 := by
  simp only [nField, BitVec.extractLsb'_toNat, Nat.shiftRight_eq_div_pow]; omega

theorem nnField_toNat (w : OpWord) : (nnField w).toNat = w.toNat % 256 := by
  simp only [nnField, BitVec.extractLsb'_toNat, Nat.shiftRight_eq_div_pow]; omega

theorem nnnField_toNat (w : OpWord) : (nnnField w).toNat = w.toNat % 4096 := by
  simp only [nnnField, BitVec.extractLsb'_toNat, Nat.shiftRight_eq_div_pow]; omega

/-! ## Fields of encoded words -/

@[simp] theorem majorField_encodeA (m : BitVec 4) (a : Addr) : majorField (encodeA m a) = m := by
  have := a.isLt
  apply BitVec.eq_of_toNat_eq; rw [majorField_toNat, encodeA_toNat]; omega

@[simp] theorem nnnField_encodeA (m : BitVec 4) (a : Addr) : nnnField (encodeA m a) = a := by
  have := a.isLt
  apply BitVec.eq_of_toNat_eq; rw [nnnField_toNat, encodeA_toNat]; omega

@[simp] theorem majorField_encodeXK (m : BitVec 4) (x : Reg) (nn : Byte) : majorField (encodeXK m x nn) = m := by
  have := nn.isLt; have := x.isLt
  apply BitVec.eq_of_toNat_eq; rw [majorField_toNat, encodeXK_toNat]; omega

@[simp] theorem xField_encodeXK (m : BitVec 4) (x : Reg) (nn : Byte) : xField (encodeXK m x nn) = x := by
  have := nn.isLt; have := x.isLt
  apply Fin.ext; rw [xField_val, encodeXK_toNat]; omega

@[simp] theorem nnField_encodeXK (m : BitVec 4) (x : Reg) (nn : Byte) : nnField (encodeXK m x nn) = nn := by
  have := nn.isLt; have := x.isLt
  apply BitVec.eq_of_toNat_eq; rw [nnField_toNat, encodeXK_toNat]; omega

@[simp] theorem majorField_encodeXYN (m : BitVec 4) (x y : Reg) (n : BitVec 4) :
    majorField (encodeXYN m x y n) = m := by
  have := n.isLt; have := x.isLt; have := y.isLt
  apply BitVec.eq_of_toNat_eq; rw [majorField_toNat, encodeXYN_toNat]; omega

@[simp] theorem xField_encodeXYN (m : BitVec 4) (x y : Reg) (n : BitVec 4) : xField (encodeXYN m x y n) = x := by
  have := n.isLt; have := x.isLt; have := y.isLt
  apply Fin.ext; rw [xField_val, encodeXYN_toNat]; omega

@[simp] theorem yField_encodeXYN (m : BitVec 4) (x y : Reg) (n : BitVec 4) : yField (encodeXYN m x y n) = y := by
  have := n.isLt; have := x.isLt; have := y.isLt
  apply Fin.ext; rw [yField_val, encodeXYN_toNat]; omega

@[simp] theorem nField_encodeXYN (m : BitVec 4) (x y : Reg) (n : BitVec 4) : nField (encodeXYN m x y n) = n := by
  have := n.isLt; have := x.isLt; have := y.isLt
  apply BitVec.eq_of_toNat_eq; rw [nField_toNat, encodeXYN_toNat]; omega

/-! ## Bytes of a word -/

theorem highByte_toNat (w : OpWord) : (highByte w).toNat = w.toNat / 256 := by
  have := w.isLt
  simp only [highByte, BitVec.extractLsb'_toNat, Nat.shiftRight_eq_div_pow]; omega

theorem lowByte_toNat (w : OpWord) : (lowByte w).toNat = w.toNat % 256 := by
  simp only [lowByte, BitVec.extractLsb'_toNat, Nat.shiftRight_eq_div_pow]; omega

theorem wordOfBytes_toNat (hi lo : Byte) : (wordOfBytes hi lo).toNat = hi.toNat * 256 + lo.toNat := by
  have := lo.isLt
  simp only [wordOfBytes, BitVec.toNat_append]
  rw [← Nat.shiftLeft_add_eq_or_of_lt this, Nat.shiftLeft_eq]

/-- A word is put together again from its two bytes. -/
@[simp] theorem wordOfBytes_bytes (w : OpWord) : wordOfBytes (highByte w) (lowByte w) = w := by
  apply BitVec.eq_of_toNat_eq
  rw [wordOfBytes_toNat, highByte_toNat, lowByte_toNat]; omega

end Sys2Proof
end

