-- ==== Sys2Proof/Laws/Memory.lean ====
section
/-! SUPPORT. Memory: a read after a write, the canonical form kept by every operation, and what the block accesses do. -/

namespace Sys2Proof.Machine

/-! ## One byte -/

theorem Memory.find_put (m : Memory) (k a : Nat) (v : Byte) :
    Memory.find (Memory.put m k v) a = if a = k then some v else Memory.find m a := by
  induction m with
  | nil => simp only [Memory.put, Memory.find, eq_comm]
  | cons c m ih =>
    obtain ⟨b, w⟩ := c
    simp only [Memory.put]
    split_ifs with h1 h2 <;> simp only [Memory.find] <;> grind

theorem Memory.find_filter_ne (m : Memory) (k a : Nat) :
    Memory.find (m.filter (fun c => c.1 ≠ k)) a = if a = k then none else Memory.find m a := by
  induction m with
  | nil => simp [Memory.find]
  | cons c m ih =>
    obtain ⟨b, w⟩ := c
    by_cases h : b = k
    · rw [List.filter_cons_of_neg (by simp [h]), ih]
      simp only [Memory.find]
      grind
    · rw [List.filter_cons_of_pos (by simp [h])]
      simp only [Memory.find, ih]
      grind

/-- A read after a write: the written byte at its address, every other byte as before. It holds of every list of cells,
canonical or not. -/
theorem Memory.byteAt_setByte (m : Memory) (k a : Nat) (v : Byte) :
    Memory.byteAt (Memory.setByte m k v) a = if a = k then v else Memory.byteAt m a := by
  unfold Memory.setByte
  by_cases hv : v = Memory.background k
  · rw [if_pos hv, Memory.byteAt, Memory.find_filter_ne]
    by_cases ha : a = k <;> simp [ha, hv, Memory.byteAt]
  · rw [if_neg hv, Memory.byteAt, Memory.find_put]
    by_cases ha : a = k <;> simp [ha, Memory.byteAt]

@[simp] theorem Memory.byteAt_setByte_same (m : Memory) (k : Nat) (v : Byte) :
    Memory.byteAt (Memory.setByte m k v) k = v := by
  simp [Memory.byteAt_setByte]

theorem Memory.byteAt_setByte_ne (m : Memory) (k a : Nat) (v : Byte) (h : a ≠ k) :
    Memory.byteAt (Memory.setByte m k v) a = Memory.byteAt m a := by
  simp [Memory.byteAt_setByte, h]

@[simp] theorem Memory.byteAt_nil (a : Nat) : Memory.byteAt [] a = Memory.background a := rfl

/-! ## The canonical form -/

theorem Memory.wf_nil : Memory.wf [] := ⟨List.Pairwise.nil, nofun⟩

theorem Memory.mem_put (m : Memory) (k : Nat) (v : Byte) (c : Host.Cell) (h : c ∈ Memory.put m k v) :
    c = (k, v) ∨ c ∈ m := by
  induction m with
  | nil => simpa [Memory.put] using h
  | cons d m ih =>
    obtain ⟨b, w⟩ := d
    simp only [Memory.put] at h
    split_ifs at h <;> simp only [List.mem_cons] at h ⊢ <;> grind

theorem Memory.pairwise_put (m : Memory) (k : Nat) (v : Byte) (h : m.Pairwise (fun a b => a.1 < b.1)) :
    (Memory.put m k v).Pairwise (fun a b => a.1 < b.1) := by
  induction m with
  | nil => simp [Memory.put]
  | cons d m ih =>
    obtain ⟨b, w⟩ := d
    obtain ⟨hd, hm⟩ := List.pairwise_cons.mp h
    simp only [Memory.put]
    split_ifs with h1 h2
    · refine List.pairwise_cons.mpr ⟨fun c hc => ?_, h⟩
      rcases List.mem_cons.mp hc with rfl | hc
      · exact h1
      · exact h1.trans (hd c hc)
    · exact List.pairwise_cons.mpr ⟨by intro c hc; have := hd c hc; simp_all, hm⟩
    · refine List.pairwise_cons.mpr ⟨fun c hc => ?_, ih hm⟩
      rcases Memory.mem_put m k v c hc with rfl | hc
      · simp; omega
      · exact hd c hc

/-- Writing one byte keeps the canonical form. -/
theorem Memory.wf_setByte (m : Memory) (k : Nat) (v : Byte) (h : Memory.wf m) (hk : k < Config.memSize) :
    Memory.wf (Memory.setByte m k v) := by
  obtain ⟨hp, hc⟩ := h
  unfold Memory.setByte
  split_ifs with hv
  · exact ⟨hp.filter _, fun c hm => hc c (List.mem_filter.mp hm).1⟩
  · refine ⟨Memory.pairwise_put m k v hp, fun c hm => ?_⟩
    rcases Memory.mem_put m k v c hm with rfl | hm
    · exact ⟨hk, hv⟩
    · exact hc c hm

/-! ## Blocks -/

theorem memRead_ok (m : Memory) (a : Nat) (h : a < Config.memSize) : memRead m a = .ok (Memory.byteAt m a) := by
  have : a ≤ 0xFFF := by simp only [Config.memSize] at h; omega
  simp [memRead, this]

theorem memWrite_ok (m : Memory) (a : Nat) (v : Byte) (h : a < Config.memSize) :
    memWrite m a v = .ok (Memory.setByte m a v) := by
  have : a ≤ 0xFFF := by simp only [Config.memSize] at h; omega
  simp [memWrite, this]

theorem readEach_ok (m : Memory) (base n : Nat) (h : base + n ≤ Config.memSize) :
    readEach m base n = .ok ((List.range n).map (fun k => Memory.byteAt m (base + k))) := by
  induction n generalizing base with
  | zero => rfl
  | succ n ih =>
    have h1 : base < Config.memSize := by omega
    have h2 : base + 1 + n ≤ Config.memSize := by omega
    simp only [readEach, memRead_ok m base h1, ih (base + 1) h2, List.range_succ_eq_map, List.map_cons, List.map_map]
    simp [Function.comp_def, Nat.add_assoc, Nat.add_comm 1]

/-- All a block read can do: raise `InvalidAddress` when its highest address lies above memory, else give the bytes at
ascending addresses. -/
theorem readBlock_eq (m : Memory) (base n : Nat) :
    readBlock m base n = if base + n > Config.memSize then .error .invalidAddress
      else .ok ((List.range n).map (fun k => Memory.byteAt m (base + k))) := by
  unfold readBlock
  split_ifs with h
  · rfl
  · exact readEach_ok m base n (by omega)

/-- The memory a block write leaves, when it fits. -/
def Memory.setBytes (m : Memory) (base : Nat) : List Byte → Memory
  | [] => m
  | b :: bs => Memory.setBytes (Memory.setByte m base b) (base + 1) bs

theorem writeEach_ok (m : Memory) (base : Nat) (bs : List Byte) (h : base + bs.length ≤ Config.memSize) :
    writeEach m base bs = .ok (Memory.setBytes m base bs) := by
  induction bs generalizing m base with
  | nil => rfl
  | cons b bs ih =>
    simp only [List.length_cons] at h
    simp only [writeEach, memWrite_ok m base b (by omega), Memory.setBytes]
    exact ih _ _ (by omega)

/-- All a block write can do: raise `InvalidAddress` when its highest address lies above memory, else write every
byte. -/
theorem writeBlock_eq (m : Memory) (base : Nat) (bs : List Byte) :
    writeBlock m base bs = if base + bs.length > Config.memSize then .error .invalidAddress
      else .ok (Memory.setBytes m base bs) := by
  unfold writeBlock
  split_ifs with h
  · rfl
  · exact writeEach_ok m base bs (by omega)

/-- What any address reads as after a block write. -/
theorem Memory.byteAt_setBytes (m : Memory) (base : Nat) (bs : List Byte) (a : Nat) :
    Memory.byteAt (Memory.setBytes m base bs) a =
      if base ≤ a ∧ a < base + bs.length then bs.getD (a - base) 0 else Memory.byteAt m a := by
  induction bs generalizing m base with
  | nil => simp only [Memory.setBytes, List.length_nil, Nat.add_zero]; grind
  | cons b bs ih =>
    simp only [Memory.setBytes, ih, Memory.byteAt_setByte, List.length_cons]
    by_cases ha : a = base
    · subst ha; simp
    · by_cases hb : base + 1 ≤ a ∧ a < base + 1 + bs.length
      · have hs : a - base = (a - (base + 1)) + 1 := by omega
        simp [hs]; grind
      · simp [ha]; grind

theorem Memory.wf_setBytes (m : Memory) (base : Nat) (bs : List Byte) (h : Memory.wf m)
    (hb : base + bs.length ≤ Config.memSize) : Memory.wf (Memory.setBytes m base bs) := by
  induction bs generalizing m base with
  | nil => exact h
  | cons b bs ih =>
    simp only [List.length_cons] at hb
    exact ih _ _ (Memory.wf_setByte m base b h (by omega)) (by omega)

/-- A block write that succeeds keeps the canonical form. -/
theorem wf_of_writeBlock (m m' : Memory) (base : Nat) (bs : List Byte) (h : Memory.wf m)
    (hw : writeBlock m base bs = .ok m') : Memory.wf m' := by
  rw [writeBlock_eq] at hw
  split_ifs at hw with hb
  cases hw
  exact Memory.wf_setBytes m base bs h (by omega)

end Sys2Proof.Machine
end

