-- ==== Sys2Proof/Laws/State.lean ====
section
/-! SUPPORT. What each update of State does to each field, and what reading a register gives after it. -/

namespace Sys2Proof.Machine

variable (s : State)

/-! ### setV -/

@[simp] theorem State.setV_V (x : Reg) (v : Byte) : (s.setV x v).V = s.V.set x.val v := rfl
@[simp] theorem State.setV_I (x : Reg) (v : Byte) : (s.setV x v).I = s.I := rfl
@[simp] theorem State.setV_pc (x : Reg) (v : Byte) : (s.setV x v).pc = s.pc := rfl
@[simp] theorem State.setV_sp (x : Reg) (v : Byte) : (s.setV x v).sp = s.sp := rfl
@[simp] theorem State.setV_stack (x : Reg) (v : Byte) : (s.setV x v).stack = s.stack := rfl
@[simp] theorem State.setV_DT (x : Reg) (v : Byte) : (s.setV x v).DT = s.DT := rfl
@[simp] theorem State.setV_ST (x : Reg) (v : Byte) : (s.setV x v).ST = s.ST := rfl
@[simp] theorem State.setV_mem (x : Reg) (v : Byte) : (s.setV x v).mem = s.mem := rfl
@[simp] theorem State.setV_fb (x : Reg) (v : Byte) : (s.setV x v).fb = s.fb := rfl
@[simp] theorem State.setV_key (x : Reg) (v : Byte) : (s.setV x v).key = s.key := rfl
@[simp] theorem State.setV_wait (x : Reg) (v : Byte) : (s.setV x v).wait = s.wait := rfl
@[simp] theorem State.setV_fault (x : Reg) (v : Byte) : (s.setV x v).fault = s.fault := rfl
@[simp] theorem State.setV_randomInput (x : Reg) (v : Byte) : (s.setV x v).randomInput = s.randomInput := rfl
@[simp] theorem State.setV_draws (x : Reg) (v : Byte) : (s.setV x v).draws = s.draws := rfl

/-! ### setFile -/

@[simp] theorem State.setFile_V (W : Vector Byte 16) : (s.setFile W).V = W := rfl
@[simp] theorem State.setFile_I (W : Vector Byte 16) : (s.setFile W).I = s.I := rfl
@[simp] theorem State.setFile_pc (W : Vector Byte 16) : (s.setFile W).pc = s.pc := rfl
@[simp] theorem State.setFile_sp (W : Vector Byte 16) : (s.setFile W).sp = s.sp := rfl
@[simp] theorem State.setFile_stack (W : Vector Byte 16) : (s.setFile W).stack = s.stack := rfl
@[simp] theorem State.setFile_DT (W : Vector Byte 16) : (s.setFile W).DT = s.DT := rfl
@[simp] theorem State.setFile_ST (W : Vector Byte 16) : (s.setFile W).ST = s.ST := rfl
@[simp] theorem State.setFile_mem (W : Vector Byte 16) : (s.setFile W).mem = s.mem := rfl
@[simp] theorem State.setFile_fb (W : Vector Byte 16) : (s.setFile W).fb = s.fb := rfl
@[simp] theorem State.setFile_key (W : Vector Byte 16) : (s.setFile W).key = s.key := rfl
@[simp] theorem State.setFile_wait (W : Vector Byte 16) : (s.setFile W).wait = s.wait := rfl
@[simp] theorem State.setFile_fault (W : Vector Byte 16) : (s.setFile W).fault = s.fault := rfl
@[simp] theorem State.setFile_randomInput (W : Vector Byte 16) : (s.setFile W).randomInput = s.randomInput := rfl
@[simp] theorem State.setFile_draws (W : Vector Byte 16) : (s.setFile W).draws = s.draws := rfl

/-! ### setI -/

@[simp] theorem State.setI_V (a : Addr) : (s.setI a).V = s.V := rfl
@[simp] theorem State.setI_I (a : Addr) : (s.setI a).I = a := rfl
@[simp] theorem State.setI_pc (a : Addr) : (s.setI a).pc = s.pc := rfl
@[simp] theorem State.setI_sp (a : Addr) : (s.setI a).sp = s.sp := rfl
@[simp] theorem State.setI_stack (a : Addr) : (s.setI a).stack = s.stack := rfl
@[simp] theorem State.setI_DT (a : Addr) : (s.setI a).DT = s.DT := rfl
@[simp] theorem State.setI_ST (a : Addr) : (s.setI a).ST = s.ST := rfl
@[simp] theorem State.setI_mem (a : Addr) : (s.setI a).mem = s.mem := rfl
@[simp] theorem State.setI_fb (a : Addr) : (s.setI a).fb = s.fb := rfl
@[simp] theorem State.setI_key (a : Addr) : (s.setI a).key = s.key := rfl
@[simp] theorem State.setI_wait (a : Addr) : (s.setI a).wait = s.wait := rfl
@[simp] theorem State.setI_fault (a : Addr) : (s.setI a).fault = s.fault := rfl
@[simp] theorem State.setI_randomInput (a : Addr) : (s.setI a).randomInput = s.randomInput := rfl
@[simp] theorem State.setI_draws (a : Addr) : (s.setI a).draws = s.draws := rfl
@[simp] theorem State.setI_getV (a : Addr) (z : Reg) : (s.setI a).getV z = s.getV z := rfl

/-! ### setPc -/

@[simp] theorem State.setPc_V (a : Addr) : (s.setPc a).V = s.V := rfl
@[simp] theorem State.setPc_I (a : Addr) : (s.setPc a).I = s.I := rfl
@[simp] theorem State.setPc_pc (a : Addr) : (s.setPc a).pc = a := rfl
@[simp] theorem State.setPc_sp (a : Addr) : (s.setPc a).sp = s.sp := rfl
@[simp] theorem State.setPc_stack (a : Addr) : (s.setPc a).stack = s.stack := rfl
@[simp] theorem State.setPc_DT (a : Addr) : (s.setPc a).DT = s.DT := rfl
@[simp] theorem State.setPc_ST (a : Addr) : (s.setPc a).ST = s.ST := rfl
@[simp] theorem State.setPc_mem (a : Addr) : (s.setPc a).mem = s.mem := rfl
@[simp] theorem State.setPc_fb (a : Addr) : (s.setPc a).fb = s.fb := rfl
@[simp] theorem State.setPc_key (a : Addr) : (s.setPc a).key = s.key := rfl
@[simp] theorem State.setPc_wait (a : Addr) : (s.setPc a).wait = s.wait := rfl
@[simp] theorem State.setPc_fault (a : Addr) : (s.setPc a).fault = s.fault := rfl
@[simp] theorem State.setPc_randomInput (a : Addr) : (s.setPc a).randomInput = s.randomInput := rfl
@[simp] theorem State.setPc_draws (a : Addr) : (s.setPc a).draws = s.draws := rfl
@[simp] theorem State.setPc_getV (a : Addr) (z : Reg) : (s.setPc a).getV z = s.getV z := rfl

/-! ### setDT -/

@[simp] theorem State.setDT_V (v : Byte) : (s.setDT v).V = s.V := rfl
@[simp] theorem State.setDT_I (v : Byte) : (s.setDT v).I = s.I := rfl
@[simp] theorem State.setDT_pc (v : Byte) : (s.setDT v).pc = s.pc := rfl
@[simp] theorem State.setDT_sp (v : Byte) : (s.setDT v).sp = s.sp := rfl
@[simp] theorem State.setDT_stack (v : Byte) : (s.setDT v).stack = s.stack := rfl
@[simp] theorem State.setDT_DT (v : Byte) : (s.setDT v).DT = v := rfl
@[simp] theorem State.setDT_ST (v : Byte) : (s.setDT v).ST = s.ST := rfl
@[simp] theorem State.setDT_mem (v : Byte) : (s.setDT v).mem = s.mem := rfl
@[simp] theorem State.setDT_fb (v : Byte) : (s.setDT v).fb = s.fb := rfl
@[simp] theorem State.setDT_key (v : Byte) : (s.setDT v).key = s.key := rfl
@[simp] theorem State.setDT_wait (v : Byte) : (s.setDT v).wait = s.wait := rfl
@[simp] theorem State.setDT_fault (v : Byte) : (s.setDT v).fault = s.fault := rfl
@[simp] theorem State.setDT_randomInput (v : Byte) : (s.setDT v).randomInput = s.randomInput := rfl
@[simp] theorem State.setDT_draws (v : Byte) : (s.setDT v).draws = s.draws := rfl
@[simp] theorem State.setDT_getV (v : Byte) (z : Reg) : (s.setDT v).getV z = s.getV z := rfl

/-! ### setST -/

@[simp] theorem State.setST_V (v : Byte) : (s.setST v).V = s.V := rfl
@[simp] theorem State.setST_I (v : Byte) : (s.setST v).I = s.I := rfl
@[simp] theorem State.setST_pc (v : Byte) : (s.setST v).pc = s.pc := rfl
@[simp] theorem State.setST_sp (v : Byte) : (s.setST v).sp = s.sp := rfl
@[simp] theorem State.setST_stack (v : Byte) : (s.setST v).stack = s.stack := rfl
@[simp] theorem State.setST_DT (v : Byte) : (s.setST v).DT = s.DT := rfl
@[simp] theorem State.setST_ST (v : Byte) : (s.setST v).ST = v := rfl
@[simp] theorem State.setST_mem (v : Byte) : (s.setST v).mem = s.mem := rfl
@[simp] theorem State.setST_fb (v : Byte) : (s.setST v).fb = s.fb := rfl
@[simp] theorem State.setST_key (v : Byte) : (s.setST v).key = s.key := rfl
@[simp] theorem State.setST_wait (v : Byte) : (s.setST v).wait = s.wait := rfl
@[simp] theorem State.setST_fault (v : Byte) : (s.setST v).fault = s.fault := rfl
@[simp] theorem State.setST_randomInput (v : Byte) : (s.setST v).randomInput = s.randomInput := rfl
@[simp] theorem State.setST_draws (v : Byte) : (s.setST v).draws = s.draws := rfl
@[simp] theorem State.setST_getV (v : Byte) (z : Reg) : (s.setST v).getV z = s.getV z := rfl

/-! ### setMem -/

@[simp] theorem State.setMem_V (m : Memory) : (s.setMem m).V = s.V := rfl
@[simp] theorem State.setMem_I (m : Memory) : (s.setMem m).I = s.I := rfl
@[simp] theorem State.setMem_pc (m : Memory) : (s.setMem m).pc = s.pc := rfl
@[simp] theorem State.setMem_sp (m : Memory) : (s.setMem m).sp = s.sp := rfl
@[simp] theorem State.setMem_stack (m : Memory) : (s.setMem m).stack = s.stack := rfl
@[simp] theorem State.setMem_DT (m : Memory) : (s.setMem m).DT = s.DT := rfl
@[simp] theorem State.setMem_ST (m : Memory) : (s.setMem m).ST = s.ST := rfl
@[simp] theorem State.setMem_mem (m : Memory) : (s.setMem m).mem = m := rfl
@[simp] theorem State.setMem_fb (m : Memory) : (s.setMem m).fb = s.fb := rfl
@[simp] theorem State.setMem_key (m : Memory) : (s.setMem m).key = s.key := rfl
@[simp] theorem State.setMem_wait (m : Memory) : (s.setMem m).wait = s.wait := rfl
@[simp] theorem State.setMem_fault (m : Memory) : (s.setMem m).fault = s.fault := rfl
@[simp] theorem State.setMem_randomInput (m : Memory) : (s.setMem m).randomInput = s.randomInput := rfl
@[simp] theorem State.setMem_draws (m : Memory) : (s.setMem m).draws = s.draws := rfl
@[simp] theorem State.setMem_getV (m : Memory) (z : Reg) : (s.setMem m).getV z = s.getV z := rfl

/-! ### setFb -/

@[simp] theorem State.setFb_V (f : Framebuffer) : (s.setFb f).V = s.V := rfl
@[simp] theorem State.setFb_I (f : Framebuffer) : (s.setFb f).I = s.I := rfl
@[simp] theorem State.setFb_pc (f : Framebuffer) : (s.setFb f).pc = s.pc := rfl
@[simp] theorem State.setFb_sp (f : Framebuffer) : (s.setFb f).sp = s.sp := rfl
@[simp] theorem State.setFb_stack (f : Framebuffer) : (s.setFb f).stack = s.stack := rfl
@[simp] theorem State.setFb_DT (f : Framebuffer) : (s.setFb f).DT = s.DT := rfl
@[simp] theorem State.setFb_ST (f : Framebuffer) : (s.setFb f).ST = s.ST := rfl
@[simp] theorem State.setFb_mem (f : Framebuffer) : (s.setFb f).mem = s.mem := rfl
@[simp] theorem State.setFb_fb (f : Framebuffer) : (s.setFb f).fb = f := rfl
@[simp] theorem State.setFb_key (f : Framebuffer) : (s.setFb f).key = s.key := rfl
@[simp] theorem State.setFb_wait (f : Framebuffer) : (s.setFb f).wait = s.wait := rfl
@[simp] theorem State.setFb_fault (f : Framebuffer) : (s.setFb f).fault = s.fault := rfl
@[simp] theorem State.setFb_randomInput (f : Framebuffer) : (s.setFb f).randomInput = s.randomInput := rfl
@[simp] theorem State.setFb_draws (f : Framebuffer) : (s.setFb f).draws = s.draws := rfl
@[simp] theorem State.setFb_getV (f : Framebuffer) (z : Reg) : (s.setFb f).getV z = s.getV z := rfl

/-! ### setKey -/

@[simp] theorem State.setKey_V (v : Keys) : (s.setKey v).V = s.V := rfl
@[simp] theorem State.setKey_I (v : Keys) : (s.setKey v).I = s.I := rfl
@[simp] theorem State.setKey_pc (v : Keys) : (s.setKey v).pc = s.pc := rfl
@[simp] theorem State.setKey_sp (v : Keys) : (s.setKey v).sp = s.sp := rfl
@[simp] theorem State.setKey_stack (v : Keys) : (s.setKey v).stack = s.stack := rfl
@[simp] theorem State.setKey_DT (v : Keys) : (s.setKey v).DT = s.DT := rfl
@[simp] theorem State.setKey_ST (v : Keys) : (s.setKey v).ST = s.ST := rfl
@[simp] theorem State.setKey_mem (v : Keys) : (s.setKey v).mem = s.mem := rfl
@[simp] theorem State.setKey_fb (v : Keys) : (s.setKey v).fb = s.fb := rfl
@[simp] theorem State.setKey_key (v : Keys) : (s.setKey v).key = v := rfl
@[simp] theorem State.setKey_wait (v : Keys) : (s.setKey v).wait = s.wait := rfl
@[simp] theorem State.setKey_fault (v : Keys) : (s.setKey v).fault = s.fault := rfl
@[simp] theorem State.setKey_randomInput (v : Keys) : (s.setKey v).randomInput = s.randomInput := rfl
@[simp] theorem State.setKey_draws (v : Keys) : (s.setKey v).draws = s.draws := rfl
@[simp] theorem State.setKey_getV (v : Keys) (z : Reg) : (s.setKey v).getV z = s.getV z := rfl

/-! ### setWait -/

@[simp] theorem State.setWait_V (w : Option Reg) : (s.setWait w).V = s.V := rfl
@[simp] theorem State.setWait_I (w : Option Reg) : (s.setWait w).I = s.I := rfl
@[simp] theorem State.setWait_pc (w : Option Reg) : (s.setWait w).pc = s.pc := rfl
@[simp] theorem State.setWait_sp (w : Option Reg) : (s.setWait w).sp = s.sp := rfl
@[simp] theorem State.setWait_stack (w : Option Reg) : (s.setWait w).stack = s.stack := rfl
@[simp] theorem State.setWait_DT (w : Option Reg) : (s.setWait w).DT = s.DT := rfl
@[simp] theorem State.setWait_ST (w : Option Reg) : (s.setWait w).ST = s.ST := rfl
@[simp] theorem State.setWait_mem (w : Option Reg) : (s.setWait w).mem = s.mem := rfl
@[simp] theorem State.setWait_fb (w : Option Reg) : (s.setWait w).fb = s.fb := rfl
@[simp] theorem State.setWait_key (w : Option Reg) : (s.setWait w).key = s.key := rfl
@[simp] theorem State.setWait_wait (w : Option Reg) : (s.setWait w).wait = w := rfl
@[simp] theorem State.setWait_fault (w : Option Reg) : (s.setWait w).fault = s.fault := rfl
@[simp] theorem State.setWait_randomInput (w : Option Reg) : (s.setWait w).randomInput = s.randomInput := rfl
@[simp] theorem State.setWait_draws (w : Option Reg) : (s.setWait w).draws = s.draws := rfl
@[simp] theorem State.setWait_getV (w : Option Reg) (z : Reg) : (s.setWait w).getV z = s.getV z := rfl

/-! ### setFault -/

@[simp] theorem State.setFault_V (f : Option Fault) : (s.setFault f).V = s.V := rfl
@[simp] theorem State.setFault_I (f : Option Fault) : (s.setFault f).I = s.I := rfl
@[simp] theorem State.setFault_pc (f : Option Fault) : (s.setFault f).pc = s.pc := rfl
@[simp] theorem State.setFault_sp (f : Option Fault) : (s.setFault f).sp = s.sp := rfl
@[simp] theorem State.setFault_stack (f : Option Fault) : (s.setFault f).stack = s.stack := rfl
@[simp] theorem State.setFault_DT (f : Option Fault) : (s.setFault f).DT = s.DT := rfl
@[simp] theorem State.setFault_ST (f : Option Fault) : (s.setFault f).ST = s.ST := rfl
@[simp] theorem State.setFault_mem (f : Option Fault) : (s.setFault f).mem = s.mem := rfl
@[simp] theorem State.setFault_fb (f : Option Fault) : (s.setFault f).fb = s.fb := rfl
@[simp] theorem State.setFault_key (f : Option Fault) : (s.setFault f).key = s.key := rfl
@[simp] theorem State.setFault_wait (f : Option Fault) : (s.setFault f).wait = s.wait := rfl
@[simp] theorem State.setFault_fault (f : Option Fault) : (s.setFault f).fault = f := rfl
@[simp] theorem State.setFault_randomInput (f : Option Fault) : (s.setFault f).randomInput = s.randomInput := rfl
@[simp] theorem State.setFault_draws (f : Option Fault) : (s.setFault f).draws = s.draws := rfl
@[simp] theorem State.setFault_getV (f : Option Fault) (z : Reg) : (s.setFault f).getV z = s.getV z := rfl

/-! ### raise -/

@[simp] theorem State.raise_V (k : Fault) : (s.raise k).V = s.V := rfl
@[simp] theorem State.raise_I (k : Fault) : (s.raise k).I = s.I := rfl
@[simp] theorem State.raise_pc (k : Fault) : (s.raise k).pc = s.pc := rfl
@[simp] theorem State.raise_sp (k : Fault) : (s.raise k).sp = s.sp := rfl
@[simp] theorem State.raise_stack (k : Fault) : (s.raise k).stack = s.stack := rfl
@[simp] theorem State.raise_DT (k : Fault) : (s.raise k).DT = s.DT := rfl
@[simp] theorem State.raise_ST (k : Fault) : (s.raise k).ST = s.ST := rfl
@[simp] theorem State.raise_mem (k : Fault) : (s.raise k).mem = s.mem := rfl
@[simp] theorem State.raise_fb (k : Fault) : (s.raise k).fb = s.fb := rfl
@[simp] theorem State.raise_key (k : Fault) : (s.raise k).key = s.key := rfl
@[simp] theorem State.raise_wait (k : Fault) : (s.raise k).wait = s.wait := rfl
@[simp] theorem State.raise_fault (k : Fault) : (s.raise k).fault = some k := rfl
@[simp] theorem State.raise_randomInput (k : Fault) : (s.raise k).randomInput = s.randomInput := rfl
@[simp] theorem State.raise_draws (k : Fault) : (s.raise k).draws = s.draws := rfl
@[simp] theorem State.raise_getV (k : Fault) (z : Reg) : (s.raise k).getV z = s.getV z := rfl

/-! ### push -/

@[simp] theorem State.push_V (a : Addr) (h : s.sp.val < 16) : (s.push a h).V = s.V := rfl
@[simp] theorem State.push_I (a : Addr) (h : s.sp.val < 16) : (s.push a h).I = s.I := rfl
@[simp] theorem State.push_pc (a : Addr) (h : s.sp.val < 16) : (s.push a h).pc = s.pc := rfl
@[simp] theorem State.push_sp (a : Addr) (h : s.sp.val < 16) : (s.push a h).sp = ⟨s.sp.val + 1, by omega⟩ := rfl
@[simp] theorem State.push_stack (a : Addr) (h : s.sp.val < 16) : (s.push a h).stack = s.stack.set s.sp.val a := rfl
@[simp] theorem State.push_DT (a : Addr) (h : s.sp.val < 16) : (s.push a h).DT = s.DT := rfl
@[simp] theorem State.push_ST (a : Addr) (h : s.sp.val < 16) : (s.push a h).ST = s.ST := rfl
@[simp] theorem State.push_mem (a : Addr) (h : s.sp.val < 16) : (s.push a h).mem = s.mem := rfl
@[simp] theorem State.push_fb (a : Addr) (h : s.sp.val < 16) : (s.push a h).fb = s.fb := rfl
@[simp] theorem State.push_key (a : Addr) (h : s.sp.val < 16) : (s.push a h).key = s.key := rfl
@[simp] theorem State.push_wait (a : Addr) (h : s.sp.val < 16) : (s.push a h).wait = s.wait := rfl
@[simp] theorem State.push_fault (a : Addr) (h : s.sp.val < 16) : (s.push a h).fault = s.fault := rfl
@[simp] theorem State.push_randomInput (a : Addr) (h : s.sp.val < 16) : (s.push a h).randomInput = s.randomInput := rfl
@[simp] theorem State.push_draws (a : Addr) (h : s.sp.val < 16) : (s.push a h).draws = s.draws := rfl
@[simp] theorem State.push_getV (a : Addr) (h : s.sp.val < 16) (z : Reg) : (s.push a h).getV z = s.getV z := rfl

/-! ### pop -/

@[simp] theorem State.pop_V : (s.pop).V = s.V := rfl
@[simp] theorem State.pop_I : (s.pop).I = s.I := rfl
@[simp] theorem State.pop_pc : (s.pop).pc = s.pc := rfl
@[simp] theorem State.pop_sp : (s.pop).sp = ⟨s.sp.val - 1, by have := s.sp.isLt; omega⟩ := rfl
@[simp] theorem State.pop_stack : (s.pop).stack = s.stack := rfl
@[simp] theorem State.pop_DT : (s.pop).DT = s.DT := rfl
@[simp] theorem State.pop_ST : (s.pop).ST = s.ST := rfl
@[simp] theorem State.pop_mem : (s.pop).mem = s.mem := rfl
@[simp] theorem State.pop_fb : (s.pop).fb = s.fb := rfl
@[simp] theorem State.pop_key : (s.pop).key = s.key := rfl
@[simp] theorem State.pop_wait : (s.pop).wait = s.wait := rfl
@[simp] theorem State.pop_fault : (s.pop).fault = s.fault := rfl
@[simp] theorem State.pop_randomInput : (s.pop).randomInput = s.randomInput := rfl
@[simp] theorem State.pop_draws : (s.pop).draws = s.draws := rfl
@[simp] theorem State.pop_getV (z : Reg) : (s.pop).getV z = s.getV z := rfl

/-! ### drawn -/

@[simp] theorem State.drawn_V : (s.drawn).V = s.V := rfl
@[simp] theorem State.drawn_I : (s.drawn).I = s.I := rfl
@[simp] theorem State.drawn_pc : (s.drawn).pc = s.pc := rfl
@[simp] theorem State.drawn_sp : (s.drawn).sp = s.sp := rfl
@[simp] theorem State.drawn_stack : (s.drawn).stack = s.stack := rfl
@[simp] theorem State.drawn_DT : (s.drawn).DT = s.DT := rfl
@[simp] theorem State.drawn_ST : (s.drawn).ST = s.ST := rfl
@[simp] theorem State.drawn_mem : (s.drawn).mem = s.mem := rfl
@[simp] theorem State.drawn_fb : (s.drawn).fb = s.fb := rfl
@[simp] theorem State.drawn_key : (s.drawn).key = s.key := rfl
@[simp] theorem State.drawn_wait : (s.drawn).wait = s.wait := rfl
@[simp] theorem State.drawn_fault : (s.drawn).fault = s.fault := rfl
@[simp] theorem State.drawn_randomInput : (s.drawn).randomInput = s.randomInput.tail := rfl
@[simp] theorem State.drawn_draws : (s.drawn).draws = s.draws + 1 := rfl
@[simp] theorem State.drawn_getV (z : Reg) : (s.drawn).getV z = s.getV z := rfl

/-! ### advance -/

@[simp] theorem State.advance_V : (s.advance).V = s.V := rfl
@[simp] theorem State.advance_I : (s.advance).I = s.I := rfl
@[simp] theorem State.advance_pc : (s.advance).pc = s.pc + 2 := rfl
@[simp] theorem State.advance_sp : (s.advance).sp = s.sp := rfl
@[simp] theorem State.advance_stack : (s.advance).stack = s.stack := rfl
@[simp] theorem State.advance_DT : (s.advance).DT = s.DT := rfl
@[simp] theorem State.advance_ST : (s.advance).ST = s.ST := rfl
@[simp] theorem State.advance_mem : (s.advance).mem = s.mem := rfl
@[simp] theorem State.advance_fb : (s.advance).fb = s.fb := rfl
@[simp] theorem State.advance_key : (s.advance).key = s.key := rfl
@[simp] theorem State.advance_wait : (s.advance).wait = s.wait := rfl
@[simp] theorem State.advance_fault : (s.advance).fault = s.fault := rfl
@[simp] theorem State.advance_randomInput : (s.advance).randomInput = s.randomInput := rfl
@[simp] theorem State.advance_draws : (s.advance).draws = s.draws := rfl
@[simp] theorem State.advance_getV (z : Reg) : (s.advance).getV z = s.getV z := rfl

/-! ### Reading a register after a write -/

theorem State.getV_setV (x z : Reg) (v : Byte) : (s.setV x v).getV z = if z = x then v else s.getV z := by
  simp only [State.getV, State.setV, Vector.getElem_set]
  by_cases h : z = x
  · simp [h]
  · have h' : ¬ x.val = z.val := fun e => h (Fin.ext e.symm)
    simp [h, h']

@[simp] theorem State.getV_setV_same (x : Reg) (v : Byte) : (s.setV x v).getV x = v := by
  simp [State.getV_setV]

theorem State.getV_setV_ne (x z : Reg) (v : Byte) (h : z ≠ x) : (s.setV x v).getV z = s.getV z := by
  simp [State.getV_setV, h]

@[simp] theorem State.setFile_getV (W : Vector Byte 16) (z : Reg) : (s.setFile W).getV z = W[z.val] := rfl

/-- Flag first, result last: the result register holds the result whatever its number, and `VF` holds the flag unless
it is the result register. -/
theorem State.writeFlagThenResult_getV (x z : Reg) (f r : Byte) :
    (s.writeFlagThenResult x f r).getV z = if z = x then r else if z = regF then f else s.getV z := by
  simp only [State.writeFlagThenResult, State.getV_setV]

/-! ### skipIf and writeFlagThenResult -/

@[simp] theorem State.skipIf_pc (b : Bool) : (s.skipIf b).pc = if b then s.pc + 4 else s.pc + 2 := by
  cases b <;> rfl

@[simp] theorem State.skipIf_V (b : Bool) : (s.skipIf b).V = s.V := by cases b <;> rfl
@[simp] theorem State.skipIf_I (b : Bool) : (s.skipIf b).I = s.I := by cases b <;> rfl
@[simp] theorem State.skipIf_sp (b : Bool) : (s.skipIf b).sp = s.sp := by cases b <;> rfl
@[simp] theorem State.skipIf_stack (b : Bool) : (s.skipIf b).stack = s.stack := by cases b <;> rfl
@[simp] theorem State.skipIf_DT (b : Bool) : (s.skipIf b).DT = s.DT := by cases b <;> rfl
@[simp] theorem State.skipIf_ST (b : Bool) : (s.skipIf b).ST = s.ST := by cases b <;> rfl
@[simp] theorem State.skipIf_mem (b : Bool) : (s.skipIf b).mem = s.mem := by cases b <;> rfl
@[simp] theorem State.skipIf_fb (b : Bool) : (s.skipIf b).fb = s.fb := by cases b <;> rfl
@[simp] theorem State.skipIf_key (b : Bool) : (s.skipIf b).key = s.key := by cases b <;> rfl
@[simp] theorem State.skipIf_wait (b : Bool) : (s.skipIf b).wait = s.wait := by cases b <;> rfl
@[simp] theorem State.skipIf_fault (b : Bool) : (s.skipIf b).fault = s.fault := by cases b <;> rfl
@[simp] theorem State.skipIf_randomInput (b : Bool) : (s.skipIf b).randomInput = s.randomInput := by cases b <;> rfl
@[simp] theorem State.skipIf_draws (b : Bool) : (s.skipIf b).draws = s.draws := by cases b <;> rfl
@[simp] theorem State.skipIf_getV (b : Bool) (z : Reg) : (s.skipIf b).getV z = s.getV z := by cases b <;> rfl

@[simp] theorem State.writeFlagThenResult_I (x : Reg) (f r : Byte) : (s.writeFlagThenResult x f r).I = s.I := rfl
@[simp] theorem State.writeFlagThenResult_pc (x : Reg) (f r : Byte) : (s.writeFlagThenResult x f r).pc = s.pc := rfl
@[simp] theorem State.writeFlagThenResult_sp (x : Reg) (f r : Byte) : (s.writeFlagThenResult x f r).sp = s.sp := rfl
@[simp] theorem State.writeFlagThenResult_stack (x : Reg) (f r : Byte) : (s.writeFlagThenResult x f r).stack = s.stack := rfl
@[simp] theorem State.writeFlagThenResult_DT (x : Reg) (f r : Byte) : (s.writeFlagThenResult x f r).DT = s.DT := rfl
@[simp] theorem State.writeFlagThenResult_ST (x : Reg) (f r : Byte) : (s.writeFlagThenResult x f r).ST = s.ST := rfl
@[simp] theorem State.writeFlagThenResult_mem (x : Reg) (f r : Byte) : (s.writeFlagThenResult x f r).mem = s.mem := rfl
@[simp] theorem State.writeFlagThenResult_fb (x : Reg) (f r : Byte) : (s.writeFlagThenResult x f r).fb = s.fb := rfl
@[simp] theorem State.writeFlagThenResult_key (x : Reg) (f r : Byte) : (s.writeFlagThenResult x f r).key = s.key := rfl
@[simp] theorem State.writeFlagThenResult_wait (x : Reg) (f r : Byte) : (s.writeFlagThenResult x f r).wait = s.wait := rfl
@[simp] theorem State.writeFlagThenResult_fault (x : Reg) (f r : Byte) : (s.writeFlagThenResult x f r).fault = s.fault := rfl
@[simp] theorem State.writeFlagThenResult_randomInput (x : Reg) (f r : Byte) : (s.writeFlagThenResult x f r).randomInput = s.randomInput := rfl
@[simp] theorem State.writeFlagThenResult_draws (x : Reg) (f r : Byte) : (s.writeFlagThenResult x f r).draws = s.draws := rfl

end Sys2Proof.Machine
end

