-- ==== Sys2Proof/Laws/Ops.lean ====
section
/-! SUPPORT. One lemma per shared operation that says everything it can do. -/

namespace Sys2Proof.Machine

/-! ## Program counter -/

theorem State.npc_toNat (s : State) : s.npc.toNat = (s.pc.toNat + 2) % 4096 := by
  simp [State.npc, BitVec.toNat_add]

/-! ## Fetch -/

/-- All a fetch can do: raise at 0xFFF, else give the two bytes at `pc0`, high byte first. -/
theorem fetch_eq (s : State) : fetch s = if s.pc = 0xFFF then .error .invalidAddress
    else .ok (wordOfBytes (Memory.byteAt s.mem s.pc.toNat) (Memory.byteAt s.mem (s.pc.toNat + 1))) := by
  unfold fetch
  split_ifs with h
  · rfl
  · have h1 := s.pc.isLt
    have h2 : s.pc.toNat ≠ 0xFFF := fun e => h (BitVec.eq_of_toNat_eq e)
    rw [memRead_ok _ _ (by show _ < 4096; omega), memRead_ok _ _ (by show _ < 4096; omega)]

theorem fetch_ok (s : State) (h : s.pc.toNat < 0xFFF) :
    fetch s = .ok (wordOfBytes (Memory.byteAt s.mem s.pc.toNat) (Memory.byteAt s.mem (s.pc.toNat + 1))) := by
  rw [fetch_eq, if_neg]
  rintro e
  rw [e] at h
  simp at h

/-! ## Raising -/

/-- A checked access that ends in an error raises it; one that succeeds goes on. -/
theorem orRaise_eq {α : Type} (s : State) (r : Except Fault α) (go : α → State) :
    (∃ a, r = .ok a ∧ orRaise s r go = .next (go a)) ∨ (∃ k, r = .error k ∧ orRaise s r go = .next (s.raise k)) := by
  cases r with
  | ok a => exact .inl ⟨a, rfl, rfl⟩
  | error k => exact .inr ⟨k, rfl, rfl⟩

/-! ## Keys -/

/-- The key the wait check takes is pressed and no lower one is. -/
theorem lowestPressed_some (key : Keys) (k : Reg) :
    lowestPressed key = some k ↔ key[k.val] = true ∧ ∀ j : Reg, j < k → key[j.val] = false := by
  unfold lowestPressed
  rw [List.find?_eq_some_iff_getElem]
  constructor
  · rintro ⟨hk, i, hi, he, hlow⟩
    refine ⟨hk, fun j hj => ?_⟩
    simp only [List.getElem_finRange, Fin.cast_mk] at he
    subst he
    have := hlow j.val hj
    simpa using this
  · rintro ⟨hk, hlow⟩
    refine ⟨hk, k.val, by simp, by simp, fun j hj => ?_⟩
    have := hlow ⟨j, hj.trans k.isLt⟩ hj
    simpa using this

theorem lowestPressed_none (key : Keys) : lowestPressed key = none ↔ ∀ k : Reg, key[k.val] = false := by
  simp [lowestPressed]

/-! ## Register blocks -/

theorem registersUpTo_length (s : State) (x : Reg) : (registersUpTo s x).length = x.val + 1 := by
  simp [registersUpTo]

theorem registersUpTo_getD (s : State) (x k : Reg) (h : k ≤ x) : (registersUpTo s x).getD k.val 0 = s.getV k := by
  have hk : k.val ≤ x.val := h
  simp [registersUpTo, State.getV, List.getD, Nat.lt_succ_of_le hk]

/-- What the registers hold after bytes were written from number `k` up. -/
theorem fillRegisters_getElem (V : Vector Byte 16) (k : Nat) (bs : List Byte) (z : Nat) (hz : z < 16) :
    (fillRegisters V k bs)[z] = if k ≤ z ∧ z < k + bs.length then bs.getD (z - k) 0 else V[z] := by
  induction bs generalizing V k with
  | nil =>
    rw [if_neg (by simp)]; rfl
  | cons b bs ih =>
    rw [fillRegisters, ih]
    by_cases h1 : k + 1 ≤ z ∧ z < k + 1 + bs.length
    · have h2 : k ≤ z ∧ z < k + (b :: bs).length := by simp only [List.length_cons]; omega
      have h3 : z - k = (z - (k + 1)) + 1 := by omega
      rw [if_pos h1, if_pos h2, h3, List.getD_cons_succ]
    · rw [if_neg h1]
      by_cases h2 : z = k
      · subst h2
        rw [dif_pos hz, if_pos (by simp)]; simp
      · rw [if_neg (by simp only [List.length_cons]; omega)]
        split_ifs
        · simp [Ne.symm h2]
        · rfl

/-! ## Placing an instruction -/

/-- A placed word is what the next fetch gives, and nothing keeps `step` from fetching it. -/
theorem placeWord_fetch (s : State) (w : OpWord) :
    (placeWord s w).fault = none ∧ (placeWord s w).wait = none ∧ fetch (placeWord s w) = .ok w := by
  refine ⟨rfl, rfl, ?_⟩
  have hpc : (placeWord s w).pc = fetchableAt s := rfl
  have hne : fetchableAt s ≠ 0xFFF := by
    unfold fetchableAt
    split_ifs with h
    · decide
    · exact h
  rw [fetch_eq, if_neg (hpc ▸ hne), hpc]
  simp [placeWord, Memory.byteAt_setByte]

end Sys2Proof.Machine
end

