-- ==== Sys2Proof/Laws/PerInstr.lean ====
section
/-! SUPPORT. Statements about every instruction as syntax, one lemma per constructor (the families of LAWS.json). -/

namespace Sys2Proof

/-! ## Masked words -/

theorem encodeA_and (m : BitVec 4) (a : Addr) : encodeA m a &&& 0xF000#16 = m ++ 0#12 := by
  rw [show 0xF000#16 = BitVec.allOnes 4 ++ 0#12 by decide, encodeA, BitVec.and_append, BitVec.and_allOnes,
    BitVec.and_zero]

theorem encodeXK_and_major (m : BitVec 4) (x : Reg) (nn : Byte) :
    encodeXK m x nn &&& 0xF000#16 = m ++ 0#4 ++ 0#8 := by
  rw [show 0xF000#16 = BitVec.allOnes 4 ++ 0#4 ++ 0#8 by decide, encodeXK, BitVec.and_append,
    BitVec.and_append, BitVec.and_allOnes, BitVec.and_zero, BitVec.and_zero]

theorem encodeXK_and_byte (m : BitVec 4) (x : Reg) (nn : Byte) :
    encodeXK m x nn &&& 0xF0FF#16 = m ++ 0#4 ++ nn := by
  rw [show 0xF0FF#16 = BitVec.allOnes 4 ++ 0#4 ++ BitVec.allOnes 8 by decide, encodeXK, BitVec.and_append,
    BitVec.and_append, BitVec.and_allOnes, BitVec.and_allOnes, BitVec.and_zero]

theorem encodeXYN_and_major (m : BitVec 4) (x y : Reg) (n : BitVec 4) :
    encodeXYN m x y n &&& 0xF000#16 = m ++ 0#4 ++ 0#4 ++ 0#4 := by
  rw [show 0xF000#16 = BitVec.allOnes 4 ++ 0#4 ++ 0#4 ++ 0#4 by decide, encodeXYN, BitVec.and_append,
    BitVec.and_append, BitVec.and_append, BitVec.and_allOnes, BitVec.and_zero, BitVec.and_zero, BitVec.and_zero]

theorem encodeXYN_and_nibble (m : BitVec 4) (x y : Reg) (n : BitVec 4) :
    encodeXYN m x y n &&& 0xF00F#16 = m ++ 0#4 ++ 0#4 ++ n := by
  rw [show 0xF00F#16 = BitVec.allOnes 4 ++ 0#4 ++ 0#4 ++ BitVec.allOnes 4 by decide, encodeXYN, BitVec.and_append,
    BitVec.and_append, BitVec.and_append, BitVec.and_allOnes, BitVec.and_allOnes, BitVec.and_zero,
    BitVec.and_zero]

/-- A word lies in a row when its masked value is the row's value. -/
theorem matchesWord_of_eq {r : Row} {w v : OpWord} (h : w &&& r.mask = v) (hv : v = r.value) :
    r.matchesWord w = true := by
  rw [Row.matchesWord, h, hv, beq_self_eq_true]

end Sys2Proof

namespace Sys2Proof.Laws.RowOfEncoding

/-- The word of an instruction lies in the instruction's row of the opcode map (30_encoding.md R54). -/
def Statement (i : Instr) : Prop := i.row.matchesWord (encodeWord i) = true

theorem cls : Statement .cls := rfl
theorem ret : Statement .ret := rfl
theorem jp (nnn : Addr) : Statement (.jp nnn) := matchesWord_of_eq (encodeA_and _ _) rfl
theorem call (nnn : Addr) : Statement (.call nnn) := matchesWord_of_eq (encodeA_and _ _) rfl
theorem seImm (x : Reg) (nn : Byte) : Statement (.seImm x nn) := matchesWord_of_eq (encodeXK_and_major _ _ _) rfl
theorem sneImm (x : Reg) (nn : Byte) : Statement (.sneImm x nn) := matchesWord_of_eq (encodeXK_and_major _ _ _) rfl
theorem seReg (x y : Reg) : Statement (.seReg x y) := matchesWord_of_eq (encodeXYN_and_nibble _ _ _ _) rfl
theorem ldImm (x : Reg) (nn : Byte) : Statement (.ldImm x nn) := matchesWord_of_eq (encodeXK_and_major _ _ _) rfl
theorem addImm (x : Reg) (nn : Byte) : Statement (.addImm x nn) := matchesWord_of_eq (encodeXK_and_major _ _ _) rfl
theorem ldReg (x y : Reg) : Statement (.ldReg x y) := matchesWord_of_eq (encodeXYN_and_nibble _ _ _ _) rfl
theorem orReg (x y : Reg) : Statement (.orReg x y) := matchesWord_of_eq (encodeXYN_and_nibble _ _ _ _) rfl
theorem andReg (x y : Reg) : Statement (.andReg x y) := matchesWord_of_eq (encodeXYN_and_nibble _ _ _ _) rfl
theorem xorReg (x y : Reg) : Statement (.xorReg x y) := matchesWord_of_eq (encodeXYN_and_nibble _ _ _ _) rfl
theorem addReg (x y : Reg) : Statement (.addReg x y) := matchesWord_of_eq (encodeXYN_and_nibble _ _ _ _) rfl
theorem subReg (x y : Reg) : Statement (.subReg x y) := matchesWord_of_eq (encodeXYN_and_nibble _ _ _ _) rfl
theorem shr (x y : Reg) : Statement (.shr x y) := matchesWord_of_eq (encodeXYN_and_nibble _ _ _ _) rfl
theorem subn (x y : Reg) : Statement (.subn x y) := matchesWord_of_eq (encodeXYN_and_nibble _ _ _ _) rfl
theorem shl (x y : Reg) : Statement (.shl x y) := matchesWord_of_eq (encodeXYN_and_nibble _ _ _ _) rfl
theorem sneReg (x y : Reg) : Statement (.sneReg x y) := matchesWord_of_eq (encodeXYN_and_nibble _ _ _ _) rfl
theorem ldI (nnn : Addr) : Statement (.ldI nnn) := matchesWord_of_eq (encodeA_and _ _) rfl
theorem jpV0 (nnn : Addr) : Statement (.jpV0 nnn) := matchesWord_of_eq (encodeA_and _ _) rfl
theorem rnd (x : Reg) (nn : Byte) : Statement (.rnd x nn) := matchesWord_of_eq (encodeXK_and_major _ _ _) rfl
theorem drw (x y : Reg) (n : Nat) : Statement (.drw x y n) := matchesWord_of_eq (encodeXYN_and_major _ _ _ _) rfl
theorem skp (x : Reg) : Statement (.skp x) := matchesWord_of_eq (encodeXK_and_byte _ _ _) rfl
theorem sknp (x : Reg) : Statement (.sknp x) := matchesWord_of_eq (encodeXK_and_byte _ _ _) rfl
theorem ldVxDT (x : Reg) : Statement (.ldVxDT x) := matchesWord_of_eq (encodeXK_and_byte _ _ _) rfl
theorem ldVxK (x : Reg) : Statement (.ldVxK x) := matchesWord_of_eq (encodeXK_and_byte _ _ _) rfl
theorem ldDTVx (x : Reg) : Statement (.ldDTVx x) := matchesWord_of_eq (encodeXK_and_byte _ _ _) rfl
theorem ldSTVx (x : Reg) : Statement (.ldSTVx x) := matchesWord_of_eq (encodeXK_and_byte _ _ _) rfl
theorem addI (x : Reg) : Statement (.addI x) := matchesWord_of_eq (encodeXK_and_byte _ _ _) rfl
theorem ldF (x : Reg) : Statement (.ldF x) := matchesWord_of_eq (encodeXK_and_byte _ _ _) rfl
theorem ldB (x : Reg) : Statement (.ldB x) := matchesWord_of_eq (encodeXK_and_byte _ _ _) rfl
theorem storeRegs (x : Reg) : Statement (.storeRegs x) := matchesWord_of_eq (encodeXK_and_byte _ _ _) rfl
theorem loadRegs (x : Reg) : Statement (.loadRegs x) := matchesWord_of_eq (encodeXK_and_byte _ _ _) rfl

end Sys2Proof.Laws.RowOfEncoding
end

