-- ==== Sys2Proof/Tests/Slice0.lean ====
section
/-! SUPPORT. The model's own tests. Expected values are those of spec/95_test_vectors.md (the vector is named in each
comment) or of the encodings of 30_encoding.md R52 and R55; the last part shows, for every obligation with hypotheses, a
concrete state and operands that meet them. -/

namespace Sys2Proof.Tests

open Machine Claims

/-! ## Helpers -/

/-- What the next state of an outcome satisfies. -/
def after (o : Host.Outcome State Fault Refusal) (p : State → Bool) : Bool :=
  match o with
  | .next t => p t
  | _ => false

/-- One step of the word `w` placed at the program counter of `s`. -/
def run (s : State) (w : Nat) : Host.Outcome State Fault Refusal := step (s.withFetchWord 16 w)

/-- The reset state, where a vector's "before" starts. -/
abbrev s0 : State := State.reset

/-- `s` with two registers set. -/
def v2 (x : Reg) (a : Byte) (y : Reg) (b : Byte) : State := (s0.setV x a).setV y b

/-- `s` with one byte of memory set. -/
def poke (s : State) (a : Nat) (b : Byte) : State := s.setMem (Memory.setByte s.mem a b)

/-- `s` with one key pressed. -/
def press (s : State) (k : Reg) : State := s.setKey (s.key.set k.val true)

/-- `s` with one pixel set. -/
def light (s : State) (q : Fin Config.fbPixels) : State := s.setFb (s.fb.set q.val true)

/-- `s` with a call-stack depth. -/
def depth (s : State) (n : Fin 17) : State := { s with sp := n }

/-- One byte of memory. -/
def at_ (t : State) (a : Nat) : Byte := Memory.byteAt t.mem a

/-! ## WellFormed -/

theorem test_wf_refuses_sprite_of_16_rows : (Instr.drw 0 0 16).wf = false := by decide
theorem test_wf_accepts_sprite_of_15_rows : (Instr.drw 0 0 15).wf = true := by decide
/-- V-H7: 3585 bytes are refused. -/
theorem test_wf_refuses_long_rom : romWf (List.replicate 3585 0xAB) = false := by
  rw [romWf, List.length_replicate]; decide
/-- V-H6: 3584 bytes are accepted. -/
theorem test_wf_accepts_full_rom : romWf (List.replicate 3584 0xAB) = true := by
  rw [romWf, List.length_replicate]; decide

/-! ## Decoding: every constructor by a word written from its encoding (R52, R55) -/

theorem test_decode_cls : decodeWord 0x00E0 = .ok .cls := by decide
theorem test_decode_ret : decodeWord 0x00EE = .ok .ret := by decide
theorem test_decode_jp : decodeWord 0x1ABC = .ok (.jp 0xABC) := by decide
theorem test_decode_call : decodeWord 0x2ABC = .ok (.call 0xABC) := by decide
theorem test_decode_seImm : decodeWord 0x3142 = .ok (.seImm 1 0x42) := by decide
theorem test_decode_sneImm : decodeWord 0x4142 = .ok (.sneImm 1 0x42) := by decide
theorem test_decode_seReg : decodeWord 0x5AB0 = .ok (.seReg 10 11) := by decide
theorem test_decode_ldImm : decodeWord 0x6A7F = .ok (.ldImm 10 0x7F) := by decide
theorem test_decode_addImm : decodeWord 0x7301 = .ok (.addImm 3 1) := by decide
theorem test_decode_ldReg : decodeWord 0x8AB0 = .ok (.ldReg 10 11) := by decide
theorem test_decode_orReg : decodeWord 0x8AB1 = .ok (.orReg 10 11) := by decide
theorem test_decode_andReg : decodeWord 0x8AB2 = .ok (.andReg 10 11) := by decide
theorem test_decode_xorReg : decodeWord 0x8AB3 = .ok (.xorReg 10 11) := by decide
theorem test_decode_addReg : decodeWord 0x8AB4 = .ok (.addReg 10 11) := by decide
theorem test_decode_subReg : decodeWord 0x8AB5 = .ok (.subReg 10 11) := by decide
theorem test_decode_shr : decodeWord 0x8AB6 = .ok (.shr 10 11) := by decide
theorem test_decode_subn : decodeWord 0x8AB7 = .ok (.subn 10 11) := by decide
theorem test_decode_shl : decodeWord 0x8ABE = .ok (.shl 10 11) := by decide
theorem test_decode_sneReg : decodeWord 0x9AB0 = .ok (.sneReg 10 11) := by decide
theorem test_decode_ldI : decodeWord 0xA2F0 = .ok (.ldI 0x2F0) := by decide
theorem test_decode_jpV0 : decodeWord 0xB301 = .ok (.jpV0 0x301) := by decide
theorem test_decode_rnd : decodeWord 0xC20F = .ok (.rnd 2 0x0F) := by decide
theorem test_decode_drw : decodeWord 0xD01F = .ok (.drw 0 1 15) := by decide
theorem test_decode_skp : decodeWord 0xEA9E = .ok (.skp 10) := by decide
theorem test_decode_sknp : decodeWord 0xEAA1 = .ok (.sknp 10) := by decide
theorem test_decode_ldVxDT : decodeWord 0xFA07 = .ok (.ldVxDT 10) := by decide
theorem test_decode_ldVxK : decodeWord 0xFA0A = .ok (.ldVxK 10) := by decide
theorem test_decode_ldDTVx : decodeWord 0xFA15 = .ok (.ldDTVx 10) := by decide
theorem test_decode_ldSTVx : decodeWord 0xFA18 = .ok (.ldSTVx 10) := by decide
theorem test_decode_addI : decodeWord 0xFA1E = .ok (.addI 10) := by decide
theorem test_decode_ldF : decodeWord 0xFA29 = .ok (.ldF 10) := by decide
theorem test_decode_ldB : decodeWord 0xFA33 = .ok (.ldB 10) := by decide
theorem test_decode_storeRegs : decodeWord 0xFA55 = .ok (.storeRegs 10) := by decide
theorem test_decode_loadRegs : decodeWord 0xFA65 = .ok (.loadRegs 10) := by decide

/-- V-U2 to V-U7: one unmatched word of every family, by the family's name. -/
theorem test_decode_rejects_by_family :
    [0x0000, 0x00E1, 0x5121, 0x8128, 0x812F, 0x9121, 0xE1A0, 0xF100].map decodeWord =
      [.error .unmatched0, .error .unmatched0, .error .unmatched5, .error .unmatched8, .error .unmatched8,
       .error .unmatched9, .error .unmatchedE, .error .unmatchedF] := by decide

theorem test_decode_takes_two_bytes_high_first :
    decode [0x6A, 0x7F, 0x12] = .ok (.ldImm 10 0x7F, [0x12]) ∧ decode [0x6A] = .error .truncated := by decide

theorem test_decodeTableWord :
    decodeTableWord 16 0x8AB7 = some (.subn 10 11) ∧ decodeTableWord 16 0x8AB8 = none := by decide

/-- R54: no word belongs to two rows: any two rows differ in a digit both of them fix. -/
theorem test_rows_do_not_overlap :
    opcodeMap.Pairwise (fun r q => r.value &&& (r.mask &&& q.mask) ≠ q.value &&& (r.mask &&& q.mask)) := by decide

/-! ## Control transfer -/

/-- V-A1: exactly the stacked address, and the entry is not cleared. -/
theorem test_ret : after (run (depth { s0 with pc := 0x20C, stack := s0.stack.set 0 0x206 } 1) 0x00EE)
    (fun t => t.pc == 0x206 && t.sp == 0 && t.stack[0] == 0x206) = true := by decide
/-- S9: underflow. -/
theorem test_ret_underflow : after (run s0 0x00EE)
    (fun t => t.pc == 0x200 && t.sp == 0 && t.fault == some .stackUnderflow) = true := by decide
/-- V-A3. -/
theorem test_jp : after (run s0 0x1ABC) (fun t => t.pc == 0xABC) = true := by decide
/-- V-A7: the pushed address wraps. -/
theorem test_call_wraps : after (run { s0 with pc := 0xFFE } 0x2ABC)
    (fun t => t.stack[0] == 0 && t.sp == 1 && t.pc == 0xABC) = true := by decide
/-- V-A9. -/
theorem test_call_overflow : after (run (depth s0 16) 0x2ABC)
    (fun t => t.pc == 0x200 && t.sp == 16 && t.fault == some .stackOverflow) = true := by decide
/-- V-A13: the skip wraps. -/
theorem test_seImm_taken : after (run ({ s0 with pc := 0xFFE }.setV 0 0x12) 0x3012) (fun t => t.pc == 2) = true := by
  decide
/-- V-A11. -/
theorem test_seImm_not_taken : after (run (s0.setV 0 0x12) 0x3013) (fun t => t.pc == 0x202) = true := by decide
/-- V-A15. -/
theorem test_sneImm_not_taken : after (run (s0.setV 0 0x12) 0x4012) (fun t => t.pc == 0x202) = true := by decide
/-- V-A16. -/
theorem test_sneImm_taken : after (run (s0.setV 0 0x12) 0x4013) (fun t => t.pc == 0x204) = true := by decide
/-- V-A17. -/
theorem test_seReg_taken : after (run (v2 1 5 2 5) 0x5120) (fun t => t.pc == 0x204) = true := by decide
/-- V-A18. -/
theorem test_seReg_not_taken : after (run (v2 1 5 2 6) 0x5120) (fun t => t.pc == 0x202) = true := by decide
/-- V-A20. -/
theorem test_sneReg_not_taken : after (run (v2 1 5 2 5) 0x9120) (fun t => t.pc == 0x202) = true := by decide
/-- V-A21. -/
theorem test_sneReg_taken : after (run (v2 1 5 2 6) 0x9120) (fun t => t.pc == 0x204) = true := by decide
/-- V-A24: the sum wraps, and the target may be odd. -/
theorem test_jpV0 : after (run (s0.setV 0 2) 0xBFFF) (fun t => t.pc == 1) = true := by decide

/-! ## Registers and arithmetic -/

/-- V-B1. -/
theorem test_ldImm : after (run s0 0x6AFF) (fun t => t.getV 10 == 0xFF && t.pc == 0x202) = true := by decide
/-- V-B3: no carry flag. -/
theorem test_addImm : after (run (v2 0 0xFF 15 0x55) 0x7001) (fun t => t.getV 0 == 0 && t.getV 15 == 0x55) = true := by
  decide
/-- V-B5. -/
theorem test_ldReg : after (run (s0.setV 1 7) 0x8010) (fun t => t.getV 0 == 7 && t.getV 1 == 7) = true := by decide
/-- V-B6. -/
theorem test_orReg : after (run ((v2 0 0xF0 1 0x0F).setV 15 0xAA) 0x8011)
    (fun t => t.getV 0 == 0xFF && t.getV 15 == 0xAA) = true := by decide
/-- V-B7. -/
theorem test_andReg : after (run ((v2 0 0xF0 1 0x3C).setV 15 0xAA) 0x8012)
    (fun t => t.getV 0 == 0x30 && t.getV 15 == 0xAA) = true := by decide
/-- V-B8. -/
theorem test_xorReg : after (run ((v2 0 0xF0 1 0x3C).setV 15 0xAA) 0x8013)
    (fun t => t.getV 0 == 0xCC && t.getV 15 == 0xAA) = true := by decide
/-- S2. -/
theorem test_addReg : after (run (v2 0 0xFF 1 1) 0x8014)
    (fun t => t.getV 0 == 0 && t.getV 15 == 1 && t.getV 1 == 1) = true := by decide
/-- V-B16: the old `VF` is the operand. -/
theorem test_addReg_flag_operand : after (run (v2 0 1 15 2) 0x80F4) (fun t => t.getV 0 == 3 && t.getV 15 == 0) = true := by
  decide
/-- S3. -/
theorem test_subReg : after (run (v2 0 5 1 0x0A) 0x8015) (fun t => t.getV 0 == 0xFB && t.getV 15 == 0) = true := by
  decide
/-- V-B21: for `x = 15` the result survives. -/
theorem test_subReg_into_flag : after (run (v2 15 5 1 3) 0x8F15) (fun t => t.getV 15 == 2) = true := by decide
/-- V-B26: `V[y]` is ignored. -/
theorem test_shr : after (run ((v2 0 4 1 0xFF).setV 15 1) 0x8016)
    (fun t => t.getV 0 == 2 && t.getV 1 == 0xFF && t.getV 15 == 0) = true := by decide
/-- V-B25: a logical shift. -/
theorem test_shr_logical : after (run (s0.setV 0 0xFF) 0x8006) (fun t => t.getV 0 == 0x7F && t.getV 15 == 1) = true := by
  decide
/-- V-B28: `V[y] - V[x]`. -/
theorem test_subn : after (run (v2 0 0x0A 1 5) 0x8017) (fun t => t.getV 0 == 0xFB && t.getV 15 == 0) = true := by decide
/-- V-B30: equal operands do not borrow. -/
theorem test_subn_equal : after (run (v2 0 7 1 7) 0x8017) (fun t => t.getV 0 == 0 && t.getV 15 == 1) = true := by decide
/-- V-B34: `V[y]` is ignored. -/
theorem test_shl : after (run (s0.setV 0 0xFF) 0x801E) (fun t => t.getV 0 == 0xFE && t.getV 15 == 1) = true := by decide
/-- V-B35. -/
theorem test_shl_into_flag : after (run (s0.setV 15 0x81) 0x8F0E) (fun t => t.getV 15 == 2) = true := by decide
/-- V-B36, with the random byte put before the machine by the host. -/
theorem test_rnd : after (run { s0 with randomInput := [0xA7] } 0xC00F) (fun t => t.getV 0 == 7 && t.draws == 1) = true := by
  decide
/-- V-B38, with the free value: a mask of 0 gives 0 whatever it is. -/
theorem test_rnd_free_value_masked :
    ∃ t, exec (.rnd 0 0) (s0.setV 0 0x55) = .next t ∧ t.getV 0 = 0 := ⟨_, rfl, by simp⟩

/-! ## Index register and memory -/

/-- V-C2. -/
theorem test_ldI : after (run s0 0xAFFF) (fun t => t.I == 0xFFF) = true := by decide
/-- V-C3. -/
theorem test_addI : after (run ((v2 0 5 15 0x33).setI 0xFFE) 0xF01E) (fun t => t.I == 3 && t.getV 15 == 0x33) = true := by
  decide
/-- V-C6. -/
theorem test_ldF : after (run (s0.setV 0 0x0A) 0xF029) (fun t => t.I == 0x032) = true := by decide
/-- V-C9: no nibble mask. -/
theorem test_ldF_whole_byte : after (run (s0.setV 0 0xFF) 0xF029) (fun t => t.I == 0x4FB) = true := by decide
/-- S7. -/
theorem test_ldB : after (run ((s0.setV 0 156).setI 0x300) 0xF033)
    (fun t => at_ t 0x300 == 1 && at_ t 0x301 == 5 && at_ t 0x302 == 6 && t.I == 0x300) = true := by decide
/-- V-C15: nothing is written. -/
theorem test_ldB_out_of_range : after (run ((s0.setV 0 0x7B).setI 0xFFE) 0xF033)
    (fun t => t.pc == 0x200 && at_ t 0xFFE == 0 && at_ t 0xFFF == 0 && t.fault == some .invalidAddress) = true := by decide
/-- V-C17. -/
theorem test_storeRegs : after (run ((((v2 0 0x11 1 0x22).setV 2 0x33).setV 3 0x44).setI 0x300) 0xF255)
    (fun t => at_ t 0x300 == 0x11 && at_ t 0x301 == 0x22 && at_ t 0x302 == 0x33 && at_ t 0x303 == 0 && t.I == 0x300)
    = true := by decide
/-- V-C19: not even the byte in range is written. -/
theorem test_storeRegs_out_of_range : after (run ((v2 0 0x11 1 0x22).setI 0xFFF) 0xF155)
    (fun t => t.pc == 0x200 && at_ t 0xFFF == 0 && t.fault == some .invalidAddress) = true := by decide
/-- V-C22, first two registers; `V3` stays. -/
theorem test_loadRegs : after (run (poke (poke ((s0.setV 3 0x44).setI 0x300) 0x300 0xAA) 0x301 0xBB) 0xF165)
    (fun t => t.getV 0 == 0xAA && t.getV 1 == 0xBB && t.getV 3 == 0x44 && t.I == 0x300) = true := by decide
/-- V-C24: nothing is loaded. -/
theorem test_loadRegs_out_of_range : after (run (poke (s0.setI 0xFFF) 0xFFF 0x99) 0xF165)
    (fun t => t.pc == 0x200 && t.getV 0 == 0 && t.fault == some .invalidAddress) = true := by decide

/-! ## Display -/

/-- V-D1. -/
theorem test_cls : after (run ((light (light s0 0) 2047).setV 15 1) 0x00E0)
    (fun t => !t.fb[0] && !t.fb[2047] && t.getV 15 == 1) = true := by decide +kernel
/-- V-D3: the row wraps within itself. -/
theorem test_drw_wraps : after (run (poke ((s0.setV 0 60).setI 0x300) 0x300 0xFF) 0xD011)
    (fun t => t.fb[0] && t.fb[3] && !t.fb[4] && !t.fb[59] && t.fb[60] && t.fb[63] && !t.fb[64] && t.getV 15 == 0)
    = true := by decide +kernel
/-- V-D9: a collision. -/
theorem test_drw_collides : after (run (poke ((light s0 1).setI 0x300) 0x300 0xC0) 0xD011)
    (fun t => t.fb[0] && !t.fb[1] && t.getV 15 == 1) = true := by decide +kernel

/-! ## Keys and timers -/

/-- V-E1. -/
theorem test_skp : after (run (press (s0.setV 0 3) 3) 0xE09E) (fun t => t.pc == 0x204) = true := by decide
/-- V-E3: key 0x13 does not exist. -/
theorem test_skp_no_such_key : after (run (press (s0.setV 0 0x13) 3) 0xE09E) (fun t => t.pc == 0x202) = true := by decide
/-- V-E4. -/
theorem test_sknp : after (run (s0.setV 0 3) 0xE0A1) (fun t => t.pc == 0x204) = true := by decide
/-- V-E5. -/
theorem test_sknp_pressed : after (run (press (s0.setV 0 3) 3) 0xE0A1) (fun t => t.pc == 0x202) = true := by decide
/-- V-E7. -/
theorem test_ldVxDT : after (run (s0.setDT 0x2A) 0xF007) (fun t => t.getV 0 == 0x2A && t.DT == 0x2A) = true := by decide
/-- V-E8. -/
theorem test_ldDTVx : after (run (s0.setV 0 0xFF) 0xF015) (fun t => t.DT == 0xFF && t.ST == 0) = true := by decide
/-- V-E9. -/
theorem test_ldSTVx : after (run (s0.setV 0 3) 0xF018) (fun t => t.ST == 3 && t.DT == 0) = true := by decide
/-- V-E10. -/
theorem test_ldVxK : after (run s0 0xF50A) (fun t => t.wait == some 5 && t.pc == 0x202) = true := by decide

/-! ## The step around the instructions, and the host's operations -/

/-- V-E13: the lowest pressed key. -/
theorem test_wait_check : after (step ((press (press s0 0) 15).setWait (some 5)))
    (fun t => t.getV 5 == 0 && t.wait == none && t.pc == 0x200) = true := by decide
/-- V-U1: reset memory executes as no-ops. -/
theorem test_reset_memory_is_no_ops : after (step s0) (fun t => t.pc == 0x202 && t.fault == none) = true := by decide
/-- V-U10: no wrap of the fetch. -/
theorem test_fetch_at_top : after (step { s0 with pc := 0xFFF })
    (fun t => t.pc == 0xFFF && t.fault == some .invalidAddress) = true := by decide
/-- V-U11. -/
theorem test_faulted_step : step (s0.setFault (some .stackUnderflow)) = .fault .stackUnderflow := rfl
/-- V-H3. -/
theorem test_tick : (tick60Hz ((s0.setDT 0x0A).setWait (some 1))).DT = 9 ∧ (tick60Hz s0).DT = 0 := by decide
/-- V-H10. -/
theorem test_load_program : let t := (loadProgram [0x60, 0x07, 0x12, 0x02] (s0.setFault (some .invalidAddress))).2
    at_ t 0x200 = 0x60 ∧ at_ t 0x201 = 0x07 ∧ at_ t 0x203 = 0x02 ∧ at_ t 0x204 = 0 ∧ at_ t 0 = 0xF0 ∧ t.fault = none := by
  decide
/-- V-H7. -/
theorem test_load_refused (s : State) :
    loadProgram (List.replicate 3585 0xAB) s = (.fail .programTooLarge none, s) := by
  rw [loadProgram, test_wf_refuses_long_rom]; rfl

/-! ## Witnesses: for every obligation with hypotheses, concrete values that meet them -/

/-- Two bytes at the last address a fetch can start at. -/
theorem witness_StepRunsDecodedInstruction : let s := ({ s0 with pc := 0xFFE } : State).withFetchWord 16 0x8014
    s.fault = none ∧ s.wait = none ∧ s.pc.toNat < 0xFFF ∧ (Instr.addReg 0 1).wf = true ∧
      decode [at_ s s.pc.toNat, at_ s (s.pc.toNat + 1)] = .ok (.addReg 0 1, []) := by decide

theorem witness_UnmatchedWordOnlyAdvances : let s := s0.withFetchWord 16 0x8128
    s.running ∧ s.pc.toNat < 0xFFF ∧ 0x8128 = wordOfBytes (at_ s s.pc.toNat) (at_ s (s.pc.toNat + 1)) ∧
      Unmatched 0x8128 := ⟨⟨rfl, rfl⟩, by decide, by decide, by unfold Unmatched; decide⟩

/-- A word of each of the six families. -/
theorem witness_UnmatchedFamilies : Unmatched 0x00E1 ∧ Unmatched 0x512F ∧ Unmatched 0x812F ∧ Unmatched 0x9121 ∧
    Unmatched 0xE19F ∧ Unmatched 0xF100 ∧ ¬ Unmatched 0x812E := by
  refine ⟨?_, ?_, ?_, ?_, ?_, ?_, ?_⟩ <;> unfold Unmatched <;> decide

theorem witness_FaultedStepFailsUnchanged : (s0.setFault (some .stackOverflow)).fault = some .stackOverflow := rfl

/-- The key at either end of the range is the lowest one pressed. -/
theorem witness_WaitingStepChecksKeys_pressed :
    (let s := (press s0 15).setWait (some 5)
     s.fault = none ∧ s.wait = some 5 ∧ s.key[15] = true ∧ ∀ j : Fin 16, j < 15 → s.key[j.val] = false) ∧
    (let s := (press (press s0 0) 15).setWait (some 15)
     s.fault = none ∧ s.wait = some 15 ∧ s.key[0] = true ∧ ∀ j : Fin 16, j < 0 → s.key[j.val] = false) := by decide

theorem witness_WaitingStepChecksKeys_none : let s := s0.setWait (some 5)
    s.fault = none ∧ s.wait = some 5 ∧ ∀ k : Fin 16, s.key[k.val] = false := by decide

theorem witness_FetchAtTopOfMemoryRaises : let s : State := { s0 with pc := 0xFFF }
    s.running ∧ s.pc.toNat = 0xFFF := ⟨⟨rfl, rfl⟩, rfl⟩

/-- Every clause at the first address, or depth, that raises. -/
theorem witness_InstructionsRaise :
    RaisesWhen .ret s0 .stackUnderflow ∧ RaisesWhen (.call 0) (depth s0 16) .stackOverflow ∧
    RaisesWhen (.drw 0 1 15) (s0.setI 0xFF2) .invalidAddress ∧ RaisesWhen (.ldB 0) (s0.setI 0xFFE) .invalidAddress ∧
    RaisesWhen (.storeRegs 15) (s0.setI 0xFF1) .invalidAddress ∧
    RaisesWhen (.loadRegs 1) (s0.setI 0xFFF) .invalidAddress :=
  ⟨.inl ⟨rfl, rfl, rfl⟩, .inr (.inl ⟨⟨0, rfl⟩, rfl, rfl⟩),
   .inr (.inr (.inl ⟨⟨0, 1, 15, rfl, by decide, by decide⟩, rfl⟩)),
   .inr (.inr (.inr (.inl ⟨⟨0, rfl⟩, by decide, rfl⟩))),
   .inr (.inr (.inr (.inr ⟨⟨15, .inl rfl, by decide⟩, rfl⟩))),
   .inr (.inr (.inr (.inr ⟨⟨1, .inr rfl, by decide⟩, rfl⟩)))⟩

/-- The last address that does not raise. -/
theorem witness_InstructionsDoNotRaise : (s0.setI 0xFFD).fault = none ∧
    (∀ k, ¬ RaisesWhen (.ldB 0) (s0.setI 0xFFD) k) ∧ ∀ k, ¬ RaisesWhen (.drw 0 1 0) (s0.setI 0xFFF) k := by
  refine ⟨rfl, fun k h => ?_, fun k h => ?_⟩
  · rcases h with ⟨h, -⟩ | ⟨⟨_, h⟩, -⟩ | ⟨⟨_, _, _, h, -⟩, -⟩ | ⟨-, h, -⟩ | ⟨⟨_, h, -⟩, -⟩
    all_goals first | exact absurd h (by decide) | (rcases h with h | h <;> cases h)
  · rcases h with ⟨h, -⟩ | ⟨⟨_, h⟩, -⟩ | ⟨⟨_, _, _, h, h', -⟩, -⟩ | ⟨⟨_, h⟩, -⟩ | ⟨⟨_, h, -⟩, -⟩
    all_goals first | (rcases h with h | h <;> cases h) | (cases h; exact absurd h' (by decide))

theorem witness_DecodeOfEncodeIsIdentity : (Instr.drw 15 15 15).wf = true := rfl

theorem witness_DecodingIsExactMatchOfOneRow :
    decodeWord 0x5AB0 = .ok (.seReg 10 11) ∧ (⟨"SE_Vx__Vy", 0xF00F, 0x5000⟩ : Row) ∈ opcodeMap ∧
      0x5AB0#16 &&& 0xF00F#16 = 0x5000#16 := by decide

/-- Room for one more address, and none. -/
theorem witness_CallPushesReturnAddress : (depth s0 15).sp.val < 16 ∧ (depth s0 16).sp.val = 16 := by decide

/-- One address, a full stack, an empty one. -/
theorem witness_ReturnPopsAddress :
    (depth s0 1).sp.val = 0 + 1 ∧ (depth s0 16).sp.val = 15 + 1 ∧ s0.sp.val = 0 := by decide

/-- A `CALL` inside a `CALL`, which fills the stack. -/
theorem witness_WellNestedCallReturnsBehindIt : (depth s0 14).fault = none ∧
    WellNested [.call 0x400, .ldImm 0 1, .ret] ∧
    ∃ t, runAll (.call 0x300 :: [.call 0x400, .ldImm 0 1, .ret] ++ [.ret]) (depth s0 14) = some t :=
  ⟨rfl, .nest 0x400 [.ldImm 0 1] [] (.plain _ _ (by decide) (fun _ => nofun) .nil) .nil, ⟨_, rfl⟩⟩

/-- A `CALL` on a full stack and a `RET` on an empty one, both about to be fetched; and sixteen targets. -/
theorem witness_StackErrorsComeFromCallAndReturnAlone :
    (let s := (depth s0 16).withFetchWord 16 0x2ABC
     s.fault = none ∧ s.sp.val = 16 ∧ NextInstrIs s (.call 0xABC) ∧ ∃ t, step s = .next t) ∧
    (let s := s0.withFetchWord 16 0x00EE
     s.fault = none ∧ s.sp.val = 0 ∧ NextInstrIs s .ret ∧ ∃ t, step s = .next t) ∧
    (List.replicate 16 (0x300 : Addr)).length = 16 :=
  ⟨⟨rfl, rfl, ⟨0x2ABC, ⟨⟨rfl, rfl⟩, by decide⟩, by decide⟩, _, rfl⟩,
   ⟨rfl, rfl, ⟨0x00EE, ⟨⟨rfl, rfl⟩, by decide⟩, by decide⟩, _, rfl⟩, rfl⟩

/-- A jump to itself, and one to 0xFFF. -/
theorem witness_JumpGoesToAddress : (0x200 : Addr) = s0.pc ∧ s0.running ∧ (0xFFF : Addr).toNat = 0xFFF :=
  ⟨rfl, ⟨rfl, rfl⟩, rfl⟩

/-- A timer that goes up, and a 0 written to one that runs. -/
theorem witness_TimersAreSetFromRegister :
    (∃ t, exec (.ldDTVx 0) (s0.setV 0 1) = .next t ∧ t.DT.toNat > (s0.setV 0 1).DT.toNat) ∧
    ∃ t, exec (.ldDTVx 0) (s0.setDT 5) = .next t ∧ reg (s0.setDT 5) 0 = 0 :=
  ⟨⟨_, rfl, by decide⟩, _, rfl, by decide⟩

/-- Two ticks around another instruction. -/
theorem witness_DelayTimerReadsValueMinusTicks : ∃ t u, exec (.ldDTVx 0) (s0.setV 0 0x0A) = .next t ∧ TimerRun 2 t u :=
  ⟨_, _, rfl, .tick _ _ _ (.instr (.ldImm 0 7) _ _ _ _ (.tick _ _ _ (.nil _)) (fun _ => nofun) rfl)⟩

/-- `AddRegisterSetsCarry`, `SubtractionsSetNoBorrow`, `ShiftsMoveBitIntoFlag`: a register next to the flag register. -/
theorem witness_FlagInstructions : (14 : Reg) ≠ regF := by decide

theorem witness_RandomByteUnderMask :
    ({ s0 with randomInput := [0xA7] } : State).randomInput = 0xA7 :: [] ∧ s0.randomInput = [] := ⟨rfl, rfl⟩

/-- The last `I` that fits, and the first that does not. -/
theorem witness_BcdStoresThreeDigits :
    dataBase (s0.setI 0xFFD) + 2 ≤ 0xFFF ∧ dataBase (s0.setI 0xFFE) + 2 > 0xFFF := by decide

/-- `StoreRegistersWritesBlock` and `LoadRegistersReadsBlock`, likewise, for all sixteen registers. -/
theorem witness_RegisterBlocks : dataBase (s0.setI 0xFF0) + (15 : Reg).val ≤ 0xFFF ∧
    dataBase (s0.setI 0xFF1) + (15 : Reg).val > 0xFFF := by decide

/-- S8 without the clearing in between. -/
theorem witness_StoreThenLoadRestoresRegisters : let s := (v2 0 0x11 1 0x22).setI 0x300
    dataBase s + (1 : Reg).val ≤ 0xFFF ∧
      ∃ t v, exec (.storeRegs 1) s = .next t ∧ exec (.loadRegs 1) (t.setV 0 0) = .next v :=
  ⟨by decide, _, _, rfl, rfl⟩

/-- P6 at its `Fx55`. -/
theorem witness_StoredCodeIsExecutedNext :
    let s := (({ s0 with pc := 0x206, I := 0x208 } : State).withFetchWord 16 0xF155 |>.setV 0 0x62).setV 1 0xAB
    s.readyFor (encodeWord (.storeRegs 1)) ∧ 1 ≤ (1 : Reg).val ∧ dataBase s = s.pc.toNat + 2 ∧
      dataBase s + (1 : Reg).val ≤ 0xFFF ∧ decodeWord (wordOfBytes (s.getV 0) (s.getV 1)) = .ok (.ldImm 2 0xAB) :=
  ⟨⟨⟨rfl, rfl⟩, by decide⟩, by decide, by decide, by decide, by decide⟩

/-- `ClearScreenUnsetsEveryPixel` and `DrawFlipsCoveredPixels`: the largest sprite that ends at the last address. -/
theorem witness_SpriteFits : (15 : Nat) ≤ 15 ∧ dataBase (s0.setI 0xFF1) + 15 ≤ 0x1000 := by decide

/-- A covered pixel that is set, one that is not covered; with no set bit nothing is covered. -/
theorem witness_DrawFlipsCoveredPixels :
    (let s := poke ((light s0 0).setI 0x300) 0x300 0x80
     SpriteCovers s 0 0 1 0 ∧ pixel s 0 = true ∧ ¬ SpriteCovers s 0 0 1 64) ∧
    ¬ ∃ q : Fin Config.fbPixels, SpriteCovers (s0.setI 0x300) 0 0 0 q.val ∧ pixel (s0.setI 0x300) q = true := by
  refine ⟨⟨⟨0, 0, by decide, by decide, by unfold SpriteBit; decide, by decide⟩, by decide +kernel, ?_⟩, ?_⟩
  · rintro ⟨i, j, hi, hj, -, h⟩
    have h0 : reg (poke ((light s0 0).setI 0x300) 0x300 0x80) 0 = 0 := rfl
    rw [h0] at h; omega
  · rintro ⟨q, ⟨i, j, hi, -⟩, -⟩; omega

/-- The same sprite drawn twice over an unset pixel. -/
theorem witness_DrawTwiceRestoresScreen : let s := poke (s0.setI 0xFFF) 0xFFF 0x80
    dataBase s + 1 ≤ 0x1000 ∧ ∃ t v, exec (.drw 0 0 1) s = .next t ∧ t.I = s.I ∧ t.mem = s.mem ∧
      t.getV 0 = s.getV 0 ∧ exec (.drw 0 0 1) t = .next v :=
  ⟨by decide, _, _, rfl, rfl, rfl, rfl, rfl⟩

/-- The last key, and the first number that is no key. -/
theorem witness_KeySkipsFollowInputVector :
    reg (s0.setV 0 15) 0 = (15 : Fin 16).val ∧ reg (s0.setV 0 16) 0 ≥ 16 := by decide

theorem witness_LoadProgramCopiesOrRefuses : (List.replicate 3584 (0xAB : Byte)).length ≤ 3584 ∧
    (List.replicate 3585 (0xAB : Byte)).length > 3584 := by
  rw [List.length_replicate, List.length_replicate]; decide

/-- A refused load among the operations. -/
theorem witness_LatchedFaultStaysUntilResetOrLoad : (s0.setFault (some .stackOverflow)).fault = some .stackOverflow ∧
    ∀ op ∈ [HostOp.tick60Hz, .step 0xA7, .loadProgram (List.replicate 3585 0xAB)],
      op ≠ .reset ∧ ∀ rom, op = .loadProgram rom → rom.length > 3584 := by
  refine ⟨rfl, fun op h => ?_⟩
  simp only [List.mem_cons, List.not_mem_nil, or_false] at h
  rcases h with rfl | rfl | rfl
  · exact ⟨by simp, fun _ h => by simp at h⟩
  · exact ⟨by simp, fun _ h => by simp at h⟩
  · refine ⟨nofun, fun rom h => ?_⟩
    rw [← HostOp.loadProgram.inj h, List.length_replicate]; decide

theorem witness_FinishedProgramStays : (s0.withFetchWord 16 0x1200).finished := ⟨⟨rfl, rfl⟩, by decide⟩

/-- `StepKeepsInvariant` and `EveryRunKeepsInvariant`: a state with listed memory that steps. -/
theorem witness_StepKeepsInvariant : let s := s0.withFetchWord 16 0x6A7F
    s.Inv ∧ ∃ t, step s = .next t := ⟨⟨by decide, .inl rfl⟩, _, rfl⟩

/-- Every part is changed by some instruction its clause names. -/
theorem witness_PartsChangeOnlyByTheirInstructions :
    (∃ t, exec (.ldI 0x300) s0 = .next t ∧ t.I ≠ s0.I) ∧
    (∃ t, exec (.ldDTVx 0) (s0.setV 0 1) = .next t ∧ t.DT ≠ s0.DT) ∧
    (∃ t, exec (.ldSTVx 0) (s0.setV 0 1) = .next t ∧ t.ST ≠ s0.ST) ∧
    (∃ t, exec .cls (light s0 0) = .next t ∧ t.fb ≠ (light s0 0).fb) ∧
    (∃ t, exec (.storeRegs 0) ((s0.setV 0 1).setI 0x300) = .next t ∧ t.mem ≠ s0.mem) ∧
    (∃ t, exec (.call 0x300) s0 = .next t ∧ t.sp ≠ s0.sp) ∧
    (∃ t, exec (.ldVxK 0) s0 = .next t ∧ t.wait ≠ s0.wait) ∧
    (∃ t, exec (.rnd 0 0) s0 = .next t ∧ t.draws ≠ s0.draws) :=
  ⟨⟨_, rfl, by decide⟩, ⟨_, rfl, by decide⟩, ⟨_, rfl, by decide⟩,
   ⟨_, rfl, fun h => absurd (congrArg (fun f : Framebuffer => f[0]) h) (by decide +kernel)⟩,
   ⟨_, rfl, by decide⟩, ⟨_, rfl, by decide⟩, ⟨_, rfl, by decide⟩, ⟨_, rfl, by decide⟩⟩

theorem witness_FlagRegisterChangesOnlyWhenNamed :
    ∃ t, exec (.addReg 0 1) (v2 0 0xFF 1 1) = .next t ∧ t.getV regF ≠ (v2 0 0xFF 1 1).getV regF :=
  ⟨_, rfl, by decide⟩

/-- Two states that differ in a dead entry, running and faulted. -/
theorem witness_DeadStackEntriesCannotBeObserved :
    (let t : State := { s0 with stack := s0.stack.set 0 0x300 }
     SameUpToDeadStack s0 t ∧ t ≠ s0 ∧ ∃ s', step s0 = .next s') ∧
    (let s := s0.setFault (some .stackOverflow)
     SameUpToDeadStack s { s with stack := s.stack.set 0 0x300 } ∧ step s = .fault .stackOverflow) :=
  ⟨⟨⟨rfl, fun j _ h => absurd h (Nat.not_lt_zero j)⟩,
     fun h => absurd (congrArg (fun s : State => s.stack[0]) h) (by decide), _, rfl⟩,
   ⟨rfl, fun j _ h => absurd h (Nat.not_lt_zero j)⟩, rfl⟩

/-- What a state that is ready for one word runs next is that word's instruction. -/
theorem nextInstrIs_unique {s : State} {w : OpWord} {i j : Instr} (hf : fetch s = .ok w) (hd : decodeWord w = .ok i)
    (h : NextInstrIs s j) : j = i := by
  obtain ⟨w', ⟨-, h⟩, hd'⟩ := h
  rw [hf] at h
  cases h
  rw [hd] at hd'
  cases hd'
  rfl

/-- `OnlyRndDependsOnRandomSource` and `OnlyKeyInstructionsDependOnKeys`: a step of another instruction. -/
theorem witness_OtherInstructionSteps : let s := s0.withFetchWord 16 0x6A7F
    s.wait = none ∧ (∀ x nn, ¬ NextInstrIs s (.rnd x nn)) ∧
      (∀ x, ¬ NextInstrIs s (.skp x) ∧ ¬ NextInstrIs s (.sknp x)) ∧ ∃ t, step s = .next t := by
  have hf : fetch (s0.withFetchWord 16 0x6A7F) = .ok 0x6A7F := by decide
  have hd : decodeWord 0x6A7F = .ok (.ldImm 10 0x7F) := by decide
  refine ⟨rfl, fun x nn h => ?_, fun x => ⟨fun h => ?_, fun h => ?_⟩, _, rfl⟩ <;>
    exact absurd (nextInstrIs_unique hf hd h) nofun

end Sys2Proof.Tests
end

section
/-! Control transfer (41_flow.md): the equations of the instructions that only move `pc`, their encodings, and what such
a move keeps. -/

namespace Sys2Proof

open Machine Claims

/-! ## Decoding an encoded instruction -/

/-- By the formats of 30_encoding.md R52: the major opcode and the fixed digits select the branch, and the operands are
the fields of the word. Only the sprite height needs the check, since its field has 4 bits. -/
theorem decodeWord_encodeWord (i : Instr) (h : i.wf = true) : decodeWord (encodeWord i) = .ok i := by
  cases i with
  | cls | ret => decide
  | jp | call | ldI | jpV0 => simp [encodeWord, decodeWord]
  | seImm | sneImm | ldImm | addImm | rnd | skp | sknp => simp [encodeWord, decodeWord]
  | seReg | sneReg => simp [encodeWord, decodeWord]
  | ldReg | orReg | andReg | xorReg | addReg | subReg | shr | subn | shl => simp [encodeWord, decodeWord, decode8]
  | ldVxDT | ldVxK | ldDTVx | ldSTVx | addI | ldF | ldB | storeRegs | loadRegs =>
    simp [encodeWord, decodeWord, decodeF]
  | drw x y n =>
    have hn : n % 16 = n := by
      have : n ≤ 15 := by simpa [Instr.wf] using h
      omega
    simp [encodeWord, decodeWord, hn]

/-! ## Words written as numbers are words of the encoder -/

theorem encodeA_eq_wordA (m : BitVec 4) (nnn : Addr) : encodeA m nnn = wordA (m.toNat * 4096) nnn := by
  rw [wordA, ← encodeA_toNat, BitVec.ofNat_toNat, BitVec.setWidth_eq]

theorem encodeXK_eq_wordXK (m : BitVec 4) (x : Reg) (nn : Byte) :
    encodeXK m x nn = wordXK (m.toNat * 4096) x nn := by
  rw [wordXK, ← encodeXK_toNat, BitVec.ofNat_toNat, BitVec.setWidth_eq]

/-- The fixed nibble of format `XY` is the last digit of the base. -/
theorem encodeXYN_eq_wordXY (m n : BitVec 4) (x y : Reg) :
    encodeXYN m x y n = wordXY (m.toNat * 4096 + n.toNat) x y := by
  have h : m.toNat * 4096 + n.toNat + x.val * 256 + y.val * 16 = (encodeXYN m x y n).toNat := by
    rw [encodeXYN_toNat]; omega
  rw [wordXY, h, BitVec.ofNat_toNat, BitVec.setWidth_eq]

/-- An instruction is encoded by the word its format gives, both ways. -/
theorem encodes_of_encodeWord_eq {w : OpWord} {i : Instr} (hwf : i.wf = true) (hw : encodeWord i = w) :
    Encodes w i := ⟨hw ▸ decodeWord_encodeWord i hwf, hw⟩

/-! ## What the instructions do -/

section
variable (s : State) (nnn : Addr) (nn : Byte) (x y : Reg)

theorem exec_jp : exec (.jp nnn) s = .next (s.setPc nnn) := rfl
theorem exec_jpV0 : exec (.jpV0 nnn) s = .next (s.setPc (indexedTarget s nnn)) := rfl
theorem exec_seImm : exec (.seImm x nn) s = .next (s.skipIf (s.getV x == nn)) := rfl
theorem exec_sneImm : exec (.sneImm x nn) s = .next (s.skipIf (s.getV x != nn)) := rfl
theorem exec_seReg : exec (.seReg x y) s = .next (s.skipIf (s.getV x == s.getV y)) := rfl
theorem exec_sneReg : exec (.sneReg x y) s = .next (s.skipIf (s.getV x != s.getV y)) := rfl

end

theorem indexedTarget_toNat (s : State) (nnn : Addr) :
    (indexedTarget s nnn).toNat = (nnn.toNat + reg s 0) % 4096 := by
  simp [indexedTarget, reg, Config.memSize]

/-- Two bytes are equal when their numbers are; `v` may itself be a register's byte. -/
theorem getV_beq_iff (s : State) (x : Reg) (v : Byte) : (s.getV x == v) = true ↔ reg s x = v.toNat := by
  rw [beq_iff_eq, reg, BitVec.toNat_inj]

theorem getV_bne_iff (s : State) (x : Reg) (v : Byte) : (s.getV x != v) = true ↔ reg s x ≠ v.toNat := by
  rw [bne_iff_ne, Ne, Ne, reg, BitVec.toNat_inj]

/-- At the top of memory a running machine raises at its fetch (40_step_cycle.md R73). -/
theorem step_of_pc_eq_top {s : State} (hr : s.running) (hpc : s.pc = 0xFFF) :
    step s = .next (s.raise .invalidAddress) := by
  obtain ⟨hfault, hwait⟩ := hr
  simp [step, cycle, hfault, hwait, fetch_eq, hpc]

/-! ## Moves of the program counter -/

theorem Machine.State.setPc_self (s : State) : s.setPc s.pc = s := rfl

theorem keepsParts_setPc (s : State) (a : Addr) : KeepsParts [] s (s.setPc a) := by
  intro p _
  cases p <;> simp [Part.same]

/-- An outcome that only sets `pc` is a jump. -/
theorem onlyJumps_of_setPc {r : Result} {s : State} {a : Addr} {n : Nat} (hr : r = .next (s.setPc a))
    (ha : a.toNat = n % 4096) : OnlyJumps r s n :=
  ⟨s.setPc a, hr, ha, fun z _ => State.setPc_getV s a z, keepsParts_setPc s a⟩

/-- A skip moves `pc` by 4 when taken and by 2 when not, and keeps everything else (40_step_cycle.md R74 (b)). -/
theorem onlyJumps_of_skipIf {r : Result} {s : State} {taken : Bool} {P : Prop} [Decidable P]
    (hr : r = .next (s.skipIf taken)) (h : taken = true ↔ P) :
    OnlyJumps r s (s.pc.toNat + if P then 4 else 2) := by
  by_cases hP : P
  · rw [h.mpr hP] at hr
    rw [if_pos hP]
    exact onlyJumps_of_setPc hr (BitVec.toNat_add s.pc 4)
  · rw [Bool.eq_false_iff.mpr (mt h.mp hP)] at hr
    rw [if_neg hP]
    exact onlyJumps_of_setPc hr s.npc_toNat

/-! ## The statements of 41_flow.md on jumps and compare skips -/

/-- Settles O12: a jump is one `setPc`; to its own address it is the identity, and at 0xFFF the fetch raises. -/
theorem jumpGoesToAddress : Obligations.JumpGoesToAddress := by
  intro s nnn
  refine ⟨encodes_of_encodeWord_eq rfl (encodeA_eq_wordA 0x1 nnn), ?jumps, ?self, ?top⟩
  case jumps => exact onlyJumps_of_setPc (exec_jp s nnn) (Nat.mod_eq_of_lt nnn.isLt).symm
  case self =>
    rintro rfl
    rw [exec_jp, State.setPc_self]
  case top =>
    intro hr htop
    have hpc : (s.setPc nnn).pc = 0xFFF := BitVec.eq_of_toNat_eq htop
    exact ⟨_, _, exec_jp s nnn, step_of_pc_eq_top hr hpc, State.raise_fault _ _⟩

/-- Settles O13: the target is reduced modulo 4096 by `indexedTarget`, and nothing but `pc` is written. -/
theorem indexedJumpAddsV0 : Obligations.IndexedJumpAddsV0 := fun s nnn =>
  ⟨encodes_of_encodeWord_eq rfl (encodeA_eq_wordA 0xB nnn),
    onlyJumps_of_setPc (exec_jpV0 s nnn) (indexedTarget_toNat s nnn)⟩

/-- Settles O14: each skip is `skipIf` of its test on bytes, which agrees with the test on their numbers. -/
theorem compareSkipsMoveFourOrTwo : Obligations.CompareSkipsMoveFourOrTwo := by
  intro s x y nn
  refine ⟨?seImm, ?sneImm, ?seReg, ?sneReg⟩
  case seImm =>
    exact ⟨encodes_of_encodeWord_eq rfl (encodeXK_eq_wordXK 0x3 x nn),
      onlyJumps_of_skipIf (exec_seImm s nn x) (getV_beq_iff s x nn)⟩
  case sneImm =>
    exact ⟨encodes_of_encodeWord_eq rfl (encodeXK_eq_wordXK 0x4 x nn),
      onlyJumps_of_skipIf (exec_sneImm s nn x) (getV_bne_iff s x nn)⟩
  case seReg =>
    exact ⟨encodes_of_encodeWord_eq rfl (encodeXYN_eq_wordXY 0x5 0x0 x y),
      onlyJumps_of_skipIf (exec_seReg s x y) (getV_beq_iff s x (s.getV y))⟩
  case sneReg =>
    exact ⟨encodes_of_encodeWord_eq rfl (encodeXYN_eq_wordXY 0x9 0x0 x y),
      onlyJumps_of_skipIf (exec_sneReg s x y) (getV_bne_iff s x (s.getV y))⟩

end Sys2Proof
end

section
/-! The register file and the logic unit (42_alu.md R100 to R105): instructions that write one register and advance. -/

namespace Sys2Proof

open Machine Claims

/-! ## What the instructions do -/

section
variable (s : State) (nn : Byte) (x y : Reg)

theorem exec_ldImm : exec (.ldImm x nn) s = .next (s.setV x nn).advance := rfl
theorem exec_addImm : exec (.addImm x nn) s = .next (s.setV x (s.getV x + nn)).advance := rfl
theorem exec_ldReg : exec (.ldReg x y) s = .next (s.setV x (s.getV y)).advance := rfl
theorem exec_orReg : exec (.orReg x y) s = .next (s.setV x (s.getV x ||| s.getV y)).advance := rfl
theorem exec_andReg : exec (.andReg x y) s = .next (s.setV x (s.getV x &&& s.getV y)).advance := rfl
theorem exec_xorReg : exec (.xorReg x y) s = .next (s.setV x (s.getV x ^^^ s.getV y)).advance := rfl

end

/-! ## Writes followed by the advance -/

theorem keepsRegs_setV (s : State) (x : Reg) (v : Byte) : KeepsRegs [x] s (s.setV x v) := fun z hz =>
  s.getV_setV_ne x z v (List.ne_of_not_mem_cons hz)

theorem keepsParts_setV (s : State) (x : Reg) (v : Byte) : KeepsParts [] s (s.setV x v) := by
  intro p _
  cases p <;> simp [Part.same]

/-- `pc` is none of the parts, so the advance does not show in them. -/
theorem keepsParts_advance {parts : List Part} {s u : State} (h : KeepsParts parts s u) :
    KeepsParts parts s u.advance := by
  intro p hp
  have hsame : Part.same s u p := h p hp
  cases p <;> exact hsame

/-- Writes that leave `pc` alone, followed by the advance, complete with the frame of the writes
(40_step_cycle.md R74 (a)). -/
theorem completes_of_advance {r : Result} {s u : State} {regs : List Reg} {parts : List Part} {effect : State → Prop}
    (hr : r = .next u.advance) (hpc : u.pc = s.pc) (hregs : KeepsRegs regs s u) (hparts : KeepsParts parts s u)
    (heffect : effect u.advance) : Completes r s regs parts effect := by
  have hnext : PcIs u.advance (s.pc.toNat + 2) := hpc ▸ u.npc_toNat
  exact ⟨u.advance, hr, heffect, hnext, hregs, keepsParts_advance hparts⟩

/-- An instruction that writes `v` to `V[x]` and advances completes with whatever `V[x] = v` gives. -/
theorem completes_of_setV {r : Result} {s : State} {x : Reg} {v : Byte} {effect : State → Prop}
    (hr : r = .next (s.setV x v).advance) (heffect : ∀ t : State, t.getV x = v → effect t) :
    Completes r s [x] [] effect :=
  completes_of_advance hr rfl (keepsRegs_setV s x v) (keepsParts_setV s x v)
    (heffect _ (s.getV_setV_same x v))

/-! ## The statements of 42_alu.md on loads, the immediate addition and logic -/

/-- Settles O19: each of the three writes one byte to `V[x]` and advances; the addition of bytes is the one modulo
256. -/
theorem loadsAndAddImmediate : Obligations.LoadsAndAddImmediate := by
  intro s x y nn
  refine ⟨?ldImm, ?addImm, ?ldReg⟩
  case ldImm =>
    exact ⟨encodes_of_encodeWord_eq rfl (encodeXK_eq_wordXK 0x6 x nn),
      completes_of_setV (exec_ldImm s nn x) fun t h => congrArg BitVec.toNat h⟩
  case addImm =>
    exact ⟨encodes_of_encodeWord_eq rfl (encodeXK_eq_wordXK 0x7 x nn),
      completes_of_setV (exec_addImm s nn x) fun t h => by rw [reg, reg, h, BitVec.toNat_add]⟩
  case ldReg =>
    exact ⟨encodes_of_encodeWord_eq rfl (encodeXYN_eq_wordXY 0x8 0x0 x y),
      completes_of_setV (exec_ldReg s x y) fun t h => congrArg BitVec.toNat h⟩

/-- Settles O20: each of the three writes the bitwise result to `V[x]` alone, whose bits are those of the operands
combined. -/
theorem logicActsBitwiseWithoutFlag : Obligations.LogicActsBitwiseWithoutFlag := by
  intro s x y
  refine ⟨?orReg, ?andReg, ?xorReg⟩
  case orReg =>
    exact ⟨encodes_of_encodeWord_eq rfl (encodeXYN_eq_wordXY 0x8 0x1 x y),
      completes_of_setV (exec_orReg s x y) fun t h b => by rw [h, BitVec.getLsbD_or]⟩
  case andReg =>
    exact ⟨encodes_of_encodeWord_eq rfl (encodeXYN_eq_wordXY 0x8 0x2 x y),
      completes_of_setV (exec_andReg s x y) fun t h b => by rw [h, BitVec.getLsbD_and]⟩
  case xorReg =>
    exact ⟨encodes_of_encodeWord_eq rfl (encodeXYN_eq_wordXY 0x8 0x3 x y),
      completes_of_setV (exec_xorReg s x y) fun t h b => by rw [h, BitVec.getLsbD_xor]⟩

end Sys2Proof
end

section
/-! The index register (43_index_memory.md R120, R121): instructions that write `I` and advance. -/

namespace Sys2Proof

open Machine Claims

/-- The fixed byte of format `X` is the last two digits of the base. -/
theorem encodeXK_eq_wordX (m : BitVec 4) (x : Reg) (nn : Byte) :
    encodeXK m x nn = wordX (m.toNat * 4096 + nn.toNat) x := by
  rw [encodeXK_eq_wordXK, wordXK, wordX, Nat.add_right_comm]

/-! ## What the instructions do -/

theorem exec_ldI (s : State) (nnn : Addr) : exec (.ldI nnn) s = .next (s.setI nnn).advance := rfl
theorem exec_addI (s : State) (x : Reg) : exec (.addI x) s = .next (s.setI (indexPlus s x)).advance := rfl

theorem indexPlus_toNat (s : State) (x : Reg) : (indexPlus s x).toNat = (s.I.toNat + reg s x) % 4096 := by
  simp [indexPlus, reg, Config.memSize]

/-! ## Writes of `I` followed by the advance -/

theorem keepsRegs_setI (s : State) (a : Addr) : KeepsRegs [] s (s.setI a) := fun z _ => s.setI_getV a z

theorem keepsParts_setI (s : State) (a : Addr) : KeepsParts [.index] s (s.setI a) := by
  intro p hp
  cases p with
  | index => exact absurd (List.mem_singleton_self _) hp
  | memory => exact fun _ => rfl
  | stack | random => exact ⟨rfl, rfl⟩
  | delay | sound | screen | keys | wait | fault => rfl

/-- An instruction that writes `a` to `I` and advances completes with whatever `I = a` gives. -/
theorem completes_of_setI {r : Result} {s : State} {a : Addr} {effect : State → Prop}
    (hr : r = .next (s.setI a).advance) (heffect : ∀ t : State, t.I = a → effect t) :
    Completes r s [] [.index] effect :=
  completes_of_advance hr (s.setI_pc a) (keepsRegs_setI s a) (keepsParts_setI s a) (heffect _ (s.setI_I a))

/-! ## The statement of 43_index_memory.md on the load and the addition -/

/-- Settles O25: both write `I` alone and advance; the sum is reduced modulo 4096 by `indexPlus`, and no register is
written, so `VF` stays. -/
theorem indexRegisterLoadsAndAdds : Obligations.IndexRegisterLoadsAndAdds := by
  intro s x nnn
  refine ⟨?ldI, ?addI⟩
  case ldI =>
    exact ⟨encodes_of_encodeWord_eq rfl (encodeA_eq_wordA 0xA nnn),
      completes_of_setI (exec_ldI s nnn) fun t h => congrArg BitVec.toNat h⟩
  case addI =>
    exact ⟨encodes_of_encodeWord_eq rfl (encodeXK_eq_wordX 0xF x 0x1E),
      completes_of_setI (exec_addI s x) fun t h => by rw [h, indexPlus_toNat]⟩

end Sys2Proof
end

section
/-! The display (44_display.md): what clear screen and a sprite that fits in memory do to the state. -/

namespace Sys2Proof

open Machine Claims

/-- The rows of the `n`-row sprite at `I`, top first (44_display.md R137). -/
def spriteRows (s : State) (n : Nat) : List Byte :=
  (List.range n).map fun k => Memory.byteAt s.mem (dataBase s + k)

@[simp] theorem length_spriteRows (s : State) (n : Nat) : (spriteRows s n).length = n := by
  simp [spriteRows]

/-- The framebuffer and the collision flag that `Dxyn` computes from a sprite that fits in memory. -/
def spriteDrawing (s : State) (x y : Reg) (n : Nat) : Framebuffer × Bool :=
  drawSprite s.fb (s.getV x) (s.getV y) (spriteRows s n)

/-! ## What the instructions do -/

theorem exec_cls (s : State) :
    exec .cls s = .next (s.setFb (Vector.replicate Config.fbPixels false)).advance := rfl

theorem readBlock_spriteRows {s : State} {n : Nat} (hfit : dataBase s + n ≤ 0x1000) :
    readBlock s.mem (dataBase s) n = .ok (spriteRows s n) := by
  have hle : ¬ dataBase s + n > Config.memSize := Nat.not_lt.mpr hfit
  rw [readBlock_eq, if_neg hle, spriteRows]

/-- A sprite that fits in memory is drawn without a raise (44_display.md R136). -/
theorem exec_drw_of_fits {s : State} (x y : Reg) {n : Nat} (hfit : dataBase s + n ≤ 0x1000) :
    exec (.drw x y n) s = .next
      ((s.setFb (spriteDrawing s x y n).1).setV regF (flagByte (spriteDrawing s x y n).2)).advance := by
  show execDrw x y n s = _
  rw [execDrw, readBlock_spriteRows hfit]
  rfl

/-! ## Writes of the framebuffer -/

theorem keepsRegs_setFb (s : State) (f : Framebuffer) : KeepsRegs [] s (s.setFb f) := fun z _ => s.setFb_getV f z

theorem keepsParts_setFb (s : State) (f : Framebuffer) : KeepsParts [.screen] s (s.setFb f) := by
  intro p hp
  cases p with
  | screen => exact absurd (List.mem_singleton_self _) hp
  | memory => exact fun _ => rfl
  | stack | random => exact ⟨rfl, rfl⟩
  | index | delay | sound | keys | wait | fault => rfl

/-! ## Sprites on an unset screen -/

/-- A collision needs a pixel that was set before (44_display.md R140). -/
theorem drawSprite_no_collision {fb : Framebuffer} (hunset : ∀ q : Fin Config.fbPixels, fb[q.val] = false)
    (x0 y0 : Byte) {rows : List Byte} (hrows : rows.length ≤ 32) : (drawSprite fb x0 y0 rows).2 = false := by
  obtain ⟨-, hflag⟩ := drawSprite_spec fb x0 y0 rows hrows
  refine Bool.eq_false_iff.mpr fun hcollision => ?_
  obtain ⟨q, -, hset⟩ := hflag.mp hcollision
  exact Bool.false_ne_true ((hunset q).symm.trans hset)

/-- A sprite drawn on an unset screen leaves `VF` 0. -/
theorem exec_drw_unset_screen {s : State} (hunset : ∀ q, pixel s q = false) (x y : Reg) {n : Nat} (hn : n ≤ 15)
    (hfit : dataBase s + n ≤ 0x1000) : ∃ t, exec (.drw x y n) s = .next t ∧ reg t regF = 0 := by
  have hrows : (spriteRows s n).length ≤ 32 := by rw [length_spriteRows]; omega
  have hflag : (spriteDrawing s x y n).2 = false := drawSprite_no_collision hunset _ _ hrows
  refine ⟨_, exec_drw_of_fits x y hfit, ?_⟩
  rw [reg, State.advance_getV, State.getV_setV_same, hflag]
  rfl

/-! ## The statement of 44_display.md on clear screen -/

/-- Settles O32: `CLS` writes the framebuffer alone and advances, and on the unset screen it leaves no sprite bit can
land on a set pixel. -/
theorem clearScreenUnsetsEveryPixel : Obligations.ClearScreenUnsetsEveryPixel := by
  intro s
  have hunset : ∀ q, pixel (s.setFb (Vector.replicate Config.fbPixels false)).advance q = false := fun q =>
    Vector.getElem_replicate q.isLt
  have hencodes : Encodes 0x00E0 .cls := encodes_of_encodeWord_eq rfl rfl
  exact ⟨hencodes, completes_of_advance (exec_cls s) rfl (keepsRegs_setFb s _) (keepsParts_setFb s _)
    ⟨hunset, fun x y n hn hfit => exec_drw_unset_screen hunset x y hn hfit⟩⟩

end Sys2Proof
end

section
/-! The timers (45_timer_key.md R152, R154, R155): what writes `DT`, what ticks leave of it, and that no instruction
reads `ST`. -/

namespace Sys2Proof

open Machine Claims

/-! ## What the instructions and the tick do -/

section
variable (s : State) (x : Reg)

theorem exec_ldVxDT : exec (.ldVxDT x) s = .next (s.setV x s.DT).advance := rfl
theorem exec_ldDTVx : exec (.ldDTVx x) s = .next (s.setDT (s.getV x)).advance := rfl
theorem exec_ldSTVx : exec (.ldSTVx x) s = .next (s.setST (s.getV x)).advance := rfl

@[simp] theorem tick60Hz_DT : (tick60Hz s).DT = countDown s.DT := rfl

end

/-- A return with an entry on the call stack, and one without (41_flow.md R85). -/
theorem exec_ret_of_nonempty {s : State} (hsp : 0 < s.sp.val) :
    exec .ret s = .next ((s.setPc (s.top hsp)).pop) := dif_pos hsp

theorem exec_ret_of_empty {s : State} (hsp : ¬ 0 < s.sp.val) : exec .ret s = .next (s.raise .stackUnderflow) :=
  dif_neg hsp

/-- A call with room on the call stack, and one without (41_flow.md R87). -/
theorem exec_call_of_room {s : State} (nnn : Addr) (hsp : s.sp.val < 16) :
    exec (.call nnn) s = .next ((s.push s.npc hsp).setPc nnn) := dif_pos hsp

theorem exec_call_of_full {s : State} (nnn : Addr) (hsp : ¬ s.sp.val < 16) :
    exec (.call nnn) s = .next (s.raise .stackOverflow) := dif_neg hsp

/-- The floor at 0 is the one of natural subtraction (46_host_operations.md R165). -/
theorem countDown_toNat (v : Byte) : (countDown v).toNat = v.toNat - 1 := by
  unfold countDown
  split_ifs with hzero
  · rw [hzero]
    rfl
  · have hpos : v.toNat ≠ 0 := fun h => hzero (BitVec.eq_of_toNat_eq h)
    bv_omega

theorem ticks_DT_toNat (n : Nat) (s : State) : (ticks n s).DT.toNat = s.DT.toNat - n := by
  induction n generalizing s with
  | zero => rfl
  | succ n ih => rw [ticks, ih, tick60Hz_DT, countDown_toNat, Nat.sub_sub, Nat.add_comm]

/-! ## Writes of a timer -/

theorem keepsRegs_setDT (s : State) (v : Byte) : KeepsRegs [] s (s.setDT v) := fun z _ => s.setDT_getV v z

theorem keepsRegs_setST (s : State) (v : Byte) : KeepsRegs [] s (s.setST v) := fun z _ => s.setST_getV v z

theorem keepsParts_setDT (s : State) (v : Byte) : KeepsParts [.delay] s (s.setDT v) := by
  intro p hp
  cases p with
  | delay => exact absurd (List.mem_singleton_self _) hp
  | memory => exact fun _ => rfl
  | stack | random => exact ⟨rfl, rfl⟩
  | index | sound | screen | keys | wait | fault => rfl

theorem keepsParts_setST (s : State) (v : Byte) : KeepsParts [.sound] s (s.setST v) := by
  intro p hp
  cases p with
  | sound => exact absurd (List.mem_singleton_self _) hp
  | memory => exact fun _ => rfl
  | stack | random => exact ⟨rfl, rfl⟩
  | index | delay | screen | keys | wait | fault => rfl

/-! ## `Fx15` alone writes the delay timer -/

/-- A checked access whose continuation keeps `DT` keeps it, since a raise does. -/
theorem orRaise_keeps_DT {α : Type} {s t : State} {r : Except Fault α} {go : α → State}
    (hgo : ∀ a, (go a).DT = s.DT) (h : orRaise s r go = .next t) : t.DT = s.DT := by
  cases r with
  | ok a =>
    cases h
    exact hgo a
  | error k =>
    cases h
    exact s.raise_DT k

theorem exec_keeps_DT {i : Instr} {s t : State} (hi : ∀ x, i ≠ .ldDTVx x) (h : exec i s = .next t) :
    t.DT = s.DT := by
  cases i with
  | ldDTVx x => exact absurd rfl (hi x)
  | jp | jpV0 | ldI | addI | ldF | cls | ldVxDT | ldVxK | ldSTVx | rnd | ldImm | addImm | ldReg | orReg | andReg |
    xorReg | addReg | subReg | shr | subn | shl =>
    cases h
    rfl
  | seImm | sneImm | seReg | sneReg | skp | sknp =>
    cases h
    exact State.skipIf_DT _ _
  | drw | ldB | storeRegs | loadRegs =>
    refine orRaise_keeps_DT ?_ h
    exact fun _ => rfl
  | ret =>
    by_cases hsp : 0 < s.sp.val
    · rw [exec_ret_of_nonempty hsp] at h
      cases h
      rfl
    · rw [exec_ret_of_empty hsp] at h
      cases h
      rfl
  | call nnn =>
    by_cases hsp : s.sp.val < 16
    · rw [exec_call_of_room nnn hsp] at h
      cases h
      rfl
    · rw [exec_call_of_full nnn hsp] at h
      cases h
      rfl

/-- Along a run without `Fx15` the delay timer goes down with the ticks alone. -/
theorem timerRun_DT_toNat {n : Nat} {s t : State} (h : TimerRun n s t) : t.DT.toNat = s.DT.toNat - n := by
  induction h with
  | nil s => rfl
  | tick n s t _ ih => rw [tick60Hz_DT, countDown_toNat, ih, Nat.sub_sub]
  | instr i n s t u _ hi he ih => rw [exec_keeps_DT hi he, ih]

/-! ## No instruction reads the sound timer -/

theorem skipIf_setST (s : State) (v : Byte) (taken : Bool) :
    (s.setST v).skipIf taken = (s.skipIf taken).setST v := by
  cases taken <;> rfl

/-- A checked access whose continuation commutes with a write of `ST` commutes with it, since a raise does. -/
theorem orRaise_setST {α : Type} {s t : State} {v : Byte} {r : Except Fault α} {go go' : α → State}
    (hgo : ∀ a, go' a = (go a).setST v) (h : orRaise s r go = .next t) :
    orRaise (s.setST v) r go' = .next (t.setST v) := by
  cases r with
  | ok a =>
    cases h
    exact congrArg Host.Outcome.next (hgo a)
  | error k =>
    cases h
    rfl

/-- Every instruction but `Fx18` commutes with a write of `ST`. -/
theorem exec_setST {i : Instr} {s t : State} (v : Byte) (hi : ∀ x, i ≠ .ldSTVx x) (h : exec i s = .next t) :
    exec i (s.setST v) = .next (t.setST v) := by
  cases i with
  | ldSTVx x => exact absurd rfl (hi x)
  | jp | jpV0 | ldI | addI | ldF | cls | ldVxDT | ldVxK | ldDTVx | rnd | ldImm | addImm | ldReg | orReg | andReg |
    xorReg | addReg | subReg | shr | subn | shl =>
    cases h
    rfl
  | seImm | sneImm | seReg | sneReg | skp | sknp =>
    cases h
    exact congrArg Host.Outcome.next (skipIf_setST _ _ _)
  | drw | ldB | storeRegs | loadRegs => exact orRaise_setST (fun _ => rfl) h
  | ret =>
    by_cases hsp : 0 < s.sp.val
    · rw [exec_ret_of_nonempty hsp] at h
      cases h
      exact exec_ret_of_nonempty (s := s.setST v) hsp
    · rw [exec_ret_of_empty hsp] at h
      cases h
      exact exec_ret_of_empty (s := s.setST v) hsp
  | call nnn =>
    by_cases hsp : s.sp.val < 16
    · rw [exec_call_of_room nnn hsp] at h
      cases h
      exact exec_call_of_room (s := s.setST v) nnn hsp
    · rw [exec_call_of_full nnn hsp] at h
      cases h
      exact exec_call_of_full (s := s.setST v) nnn hsp

/-- Whatever `ST` holds, an instruction does the same to everything else; `Fx18` forgets what it held. -/
theorem exec_ignores_ST {i : Instr} {s t : State} (v : Byte) (h : exec i s = .next t) :
    ∃ u, exec i (s.setST v) = .next u ∧ u.setST 0 = t.setST 0 := by
  by_cases hi : ∃ x, i = .ldSTVx x
  · obtain ⟨x, rfl⟩ := hi
    exact ⟨t, h, rfl⟩
  · exact ⟨t.setST v, exec_setST v (not_exists.mp hi) h, rfl⟩

/-! ## The statements of 45_timer_key.md on the timers -/

/-- Settles O36: the only instruction that writes `DT` is `Fx15`, ticks only lower it, and writes of `ST` commute with
every instruction but `Fx18`, which overwrites them. -/
theorem timersAreSetFromRegister : Obligations.TimersAreSetFromRegister := by
  intro s x
  refine ⟨?onlyWriter, ?zeroStays, fun i t v h => exec_ignores_ST v h, ?ldDTVx, ?ldSTVx⟩
  case onlyWriter =>
    intro i t h hup
    by_contra hi
    rw [exec_keeps_DT (not_exists.mp hi) h] at hup
    exact lt_irrefl _ hup
  case zeroStays =>
    intro t n h hzero
    cases h
    have hDT : (s.setDT (s.getV x)).advance.DT.toNat = 0 := hzero
    apply BitVec.eq_of_toNat_eq
    rw [ticks_DT_toNat, hDT, Nat.zero_sub]
    rfl
  case ldDTVx =>
    exact ⟨encodes_of_encodeWord_eq rfl (encodeXK_eq_wordX 0xF x 0x15),
      completes_of_advance (exec_ldDTVx s x) rfl (keepsRegs_setDT s _) (keepsParts_setDT s _) rfl⟩
  case ldSTVx =>
    exact ⟨encodes_of_encodeWord_eq rfl (encodeXK_eq_wordX 0xF x 0x18),
      completes_of_advance (exec_ldSTVx s x) rfl (keepsRegs_setST s _) (keepsParts_setST s _) rfl⟩

/-- Settles O37: `Fx07` copies `DT`, which after `Fx15` only the ticks change. -/
theorem delayTimerReadsValueMinusTicks : Obligations.DelayTimerReadsValueMinusTicks := by
  intro s x y n
  refine ⟨⟨encodes_of_encodeWord_eq rfl (encodeXK_eq_wordX 0xF x 0x07),
    completes_of_setV (exec_ldVxDT s x) fun t h => congrArg BitVec.toNat h⟩, ?_⟩
  intro t u hwrite hrun
  cases hwrite
  refine ⟨_, exec_ldVxDT u y, ?_⟩
  calc reg (u.setV y u.DT).advance y
      = u.DT.toNat := by rw [reg, State.advance_getV, State.getV_setV_same]
    _ = reg s x - n := timerRun_DT_toNat hrun

end Sys2Proof
end

section
/-! The errors of 60_exceptions.md: what a `step` raises is `InvalidAddress` or an error of the instruction it runs, and
the two stack errors have one instruction each. -/

namespace Sys2Proof

open Machine Claims

/-! ## When a checked access raises -/

theorem readBlock_error {m : Memory} {base n : Nat} {k : Fault} (h : readBlock m base n = .error k) :
    base + n > 0x1000 ∧ k = .invalidAddress := by
  rw [readBlock_eq] at h
  split_ifs at h with hout
  cases h
  exact ⟨hout, rfl⟩

theorem writeBlock_error {m : Memory} {base : Nat} {bs : List Byte} {k : Fault}
    (h : writeBlock m base bs = .error k) : base + bs.length > 0x1000 ∧ k = .invalidAddress := by
  rw [writeBlock_eq] at h
  split_ifs at h with hout
  cases h
  exact ⟨hout, rfl⟩

/-- A checked access whose continuation leaves the latch alone changes it only by raising the error of the access. -/
theorem orRaise_fault {α : Type} {s t : State} {r : Except Fault α} {go : α → State}
    (h : orRaise s r go = .next t) (hgo : ∀ a, (go a).fault = s.fault) :
    t.fault = s.fault ∨ ∃ k, r = .error k ∧ t = s.raise k := by
  cases r with
  | ok a =>
    cases h
    exact .inl (hgo a)
  | error k =>
    cases h
    exact .inr ⟨k, rfl, rfl⟩

/-! ## What an instruction raises -/

/-- An instruction leaves the latch as it was, or raises as 20_memory.md R36 and 41_flow.md R85, R87 say it does, and
then it has written nothing else (40_step_cycle.md R78). -/
theorem exec_fault {i : Instr} {s t : State} (h : exec i s = .next t) :
    t.fault = s.fault ∨ ∃ k, RaisesWhen i s k ∧ t = s.raise k := by
  cases i with
  | jp | jpV0 | ldI | addI | ldF | cls | ldVxDT | ldVxK | ldDTVx | ldSTVx | rnd | ldImm | addImm | ldReg | orReg |
    andReg | xorReg | addReg | subReg | shr | subn | shl =>
    cases h
    exact .inl rfl
  | seImm | sneImm | seReg | sneReg | skp | sknp =>
    cases h
    exact .inl (State.skipIf_fault _ _)
  | ret =>
    by_cases hsp : 0 < s.sp.val
    · rw [exec_ret_of_nonempty hsp] at h
      cases h
      exact .inl rfl
    · rw [exec_ret_of_empty hsp] at h
      cases h
      exact .inr ⟨_, .inl ⟨rfl, Nat.eq_zero_of_not_pos hsp, rfl⟩, rfl⟩
  | call nnn =>
    by_cases hsp : s.sp.val < 16
    · rw [exec_call_of_room nnn hsp] at h
      cases h
      exact .inl rfl
    · have hfull : s.sp.val = 16 := by omega
      rw [exec_call_of_full nnn hsp] at h
      cases h
      exact .inr ⟨_, .inr (.inl ⟨⟨nnn, rfl⟩, hfull, rfl⟩), rfl⟩
  | drw x y n =>
    refine (orRaise_fault h fun _ => rfl).imp_right fun ⟨k, hr, ht⟩ => ?_
    obtain ⟨hout, rfl⟩ := readBlock_error hr
    rw [dataBase] at hout
    have hI : s.I.toNat < 4096 := s.I.isLt
    have hrange : 1 ≤ n ∧ s.I.toNat + n - 1 > 0xFFF := by omega
    exact ⟨_, .inr (.inr (.inl ⟨⟨x, y, n, rfl, hrange⟩, rfl⟩)), ht⟩
  | ldB x =>
    refine (orRaise_fault h fun _ => rfl).imp_right fun ⟨k, hr, ht⟩ => ?_
    obtain ⟨hout, rfl⟩ := writeBlock_error hr
    have hrange : s.I.toNat + 2 > 0xFFF := Nat.lt_of_succ_lt_succ hout
    exact ⟨_, .inr (.inr (.inr (.inl ⟨⟨x, rfl⟩, hrange, rfl⟩))), ht⟩
  | storeRegs x =>
    refine (orRaise_fault h fun _ => rfl).imp_right fun ⟨k, hr, ht⟩ => ?_
    obtain ⟨hout, rfl⟩ := writeBlock_error hr
    rw [registersUpTo_length] at hout
    have hrange : s.I.toNat + x.val > 0xFFF := Nat.lt_of_succ_lt_succ hout
    exact ⟨_, .inr (.inr (.inr (.inr ⟨⟨x, .inl rfl, hrange⟩, rfl⟩))), ht⟩
  | loadRegs x =>
    refine (orRaise_fault h fun _ => rfl).imp_right fun ⟨k, hr, ht⟩ => ?_
    obtain ⟨hout, rfl⟩ := readBlock_error hr
    have hrange : s.I.toNat + x.val > 0xFFF := Nat.lt_of_succ_lt_succ hout
    exact ⟨_, .inr (.inr (.inr (.inr ⟨⟨x, .inr rfl, hrange⟩, rfl⟩))), ht⟩

theorem raisesWhen_stackOverflow_iff {i : Instr} {s : State} :
    RaisesWhen i s .stackOverflow ↔ (∃ nnn, i = .call nnn) ∧ s.sp.val = 16 := by
  simp [RaisesWhen]

theorem raisesWhen_stackUnderflow_iff {i : Instr} {s : State} :
    RaisesWhen i s .stackUnderflow ↔ i = .ret ∧ s.sp.val = 0 := by
  simp [RaisesWhen]

theorem raisesOnly_of_raise {r : Result} {s : State} {k : Fault} (hr : r = .next (s.raise k)) :
    RaisesOnly k r s := by
  refine ⟨s.raise k, hr, rfl, rfl, fun z _ => s.raise_getV k z, fun p hp => ?_⟩
  cases p with
  | fault => exact absurd (List.mem_singleton_self _) hp
  | memory => exact fun _ => rfl
  | stack | random => exact ⟨rfl, rfl⟩
  | index | delay | sound | screen | keys | wait => rfl

/-! ## What a step does -/

@[simp] theorem waitCheck_fault (r : Reg) (s : State) : (waitCheck r s).fault = s.fault := by
  unfold waitCheck
  split <;> rfl

section
variable {s : State}

theorem step_of_wait {r : Reg} (hfault : s.fault = none) (hwait : s.wait = some r) :
    step s = .next (waitCheck r s) := by
  simp [step, cycle, hfault, hwait]

/-- A machine that has fetched a word decodes it and runs what it decodes to (40_step_cycle.md R70). -/
theorem step_of_readyFor {w : OpWord} (h : s.readyFor w) : step s = runWord w s := by
  obtain ⟨⟨hfault, hwait⟩, hfetch⟩ := h
  simp [step, cycle, hfault, hwait, hfetch]

theorem runWord_of_ok {w : OpWord} {i : Instr} (h : decodeWord w = .ok i) : runWord w s = exec i s := by
  simp [runWord, h]

theorem runWord_of_error {w : OpWord} {e : Reject} (h : decodeWord w = .error e) : runWord w s = .next (noOp s) := by
  simp [runWord, h]

theorem step_of_nextInstrIs {i : Instr} (h : NextInstrIs s i) : step s = exec i s := by
  obtain ⟨w, hready, hdecode⟩ := h
  rw [step_of_readyFor hready, runWord_of_ok hdecode]

/-- All a `step` outside the faulted state can do, in the order of 40_step_cycle.md R70: check the keys, raise at its
fetch, skip an unmatched word, or run an instruction. -/
theorem step_cases {t : State} (hfault : s.fault = none) (h : step s = .next t) :
    (∃ r, s.wait = some r ∧ t = waitCheck r s) ∨ (s.pc = 0xFFF ∧ t = s.raise .invalidAddress) ∨
    (∃ w e, s.readyFor w ∧ decodeWord w = .error e ∧ t = noOp s) ∨ ∃ i, NextInstrIs s i ∧ exec i s = .next t := by
  cases hwait : s.wait with
  | some r =>
    rw [step_of_wait hfault hwait] at h
    cases h
    exact .inl ⟨r, rfl, rfl⟩
  | none =>
    have hrunning : s.running := ⟨hfault, hwait⟩
    by_cases hpc : s.pc = 0xFFF
    · rw [step_of_pc_eq_top hrunning hpc] at h
      cases h
      exact .inr (.inl ⟨hpc, rfl⟩)
    · have hready : s.readyFor _ := ⟨hrunning, (fetch_eq s).trans (if_neg hpc)⟩
      rw [step_of_readyFor hready] at h
      cases hdecode : decodeWord _ with
      | error e =>
        rw [runWord_of_error hdecode] at h
        cases h
        exact .inr (.inr (.inl ⟨_, e, hready, hdecode, rfl⟩))
      | ok i =>
        rw [runWord_of_ok hdecode] at h
        exact .inr (.inr (.inr ⟨i, ⟨_, hready, hdecode⟩, h⟩))

/-- A `step` that sets the latch has raised and written nothing else; the error is the one of its fetch, or one that the
instruction it runs raises. -/
theorem step_raises {t : State} {k : Fault} (hfault : s.fault = none) (h : step s = .next t) (hk : t.fault = some k) :
    t = s.raise k ∧ (k = .invalidAddress ∨ ∃ i, NextInstrIs s i ∧ RaisesWhen i s k) := by
  have hset : t.fault ≠ s.fault := by simp [hk, hfault]
  obtain ⟨r, -, rfl⟩ | ⟨-, rfl⟩ | ⟨w, e, -, -, rfl⟩ | ⟨i, hi, hexec⟩ := step_cases hfault h
  · exact absurd (waitCheck_fault r s) hset
  · cases hk
    exact ⟨rfl, .inl rfl⟩
  · exact absurd s.advance_fault hset
  · obtain ⟨k', hraises, rfl⟩ := (exec_fault hexec).resolve_left hset
    cases hk
    exact ⟨rfl, .inr ⟨i, hi, hraises⟩⟩

theorem step_stackOverflow_iff {t : State} (hfault : s.fault = none) (h : step s = .next t) :
    t.fault = some .stackOverflow ↔ s.sp.val = 16 ∧ ∃ nnn, NextInstrIs s (.call nnn) := by
  constructor
  · intro hk
    obtain ⟨-, hfetch | ⟨i, hi, hraises⟩⟩ := step_raises hfault h hk
    · cases hfetch
    · obtain ⟨⟨nnn, rfl⟩, hsp⟩ := raisesWhen_stackOverflow_iff.mp hraises
      exact ⟨hsp, nnn, hi⟩
  · rintro ⟨hsp, nnn, hcall⟩
    rw [step_of_nextInstrIs hcall, exec_call_of_full nnn (by omega)] at h
    cases h
    rfl

theorem step_stackUnderflow_iff {t : State} (hfault : s.fault = none) (h : step s = .next t) :
    t.fault = some .stackUnderflow ↔ s.sp.val = 0 ∧ NextInstrIs s .ret := by
  constructor
  · intro hk
    obtain ⟨-, hfetch | ⟨i, hi, hraises⟩⟩ := step_raises hfault h hk
    · cases hfetch
    · obtain ⟨rfl, hsp⟩ := raisesWhen_stackUnderflow_iff.mp hraises
      exact ⟨hsp, hi⟩
  · rintro ⟨hsp, hret⟩
    rw [step_of_nextInstrIs hret, exec_ret_of_empty (by omega)] at h
    cases h
    rfl

end

/-! ## Calls one after another -/

/-- Calls that fit on the call stack all complete, and each adds one entry. -/
theorem runAll_calls {targets : List Addr} {s : State} (hfault : s.fault = none)
    (hroom : s.sp.val + targets.length ≤ 16) :
    ∃ t, runAll (targets.map .call) s = some t ∧ t.sp.val = s.sp.val + targets.length := by
  induction targets generalizing s with
  | nil => exact ⟨s, rfl, rfl⟩
  | cons nnn targets ih =>
    rw [List.length_cons] at hroom
    have hsp : s.sp.val < 16 := by omega
    have hroom' : s.sp.val + 1 + targets.length ≤ 16 := by omega
    obtain ⟨t, hrun, ht⟩ := ih (s := (s.push s.npc hsp).setPc nnn) hfault hroom'
    refine ⟨t, ?_, ht.trans (Nat.add_right_comm _ _ _)⟩
    simpa [runAll, exec_call_of_room nnn hsp, hfault] using hrun

/-! ## The statement of 60_exceptions.md on the stack errors -/

/-- Settles O18: a `step` sets the latch only where `step_raises` says, and of the errors of `RaisesWhen` the two of the
stack belong to `CALL` and `RET` alone; sixteen calls fill the empty stack. -/
theorem stackErrorsComeFromCallAndReturnAlone : Obligations.StackErrorsComeFromCallAndReturnAlone := by
  intro s hfault
  refine ⟨fun t h => ⟨step_stackOverflow_iff hfault h, step_stackUnderflow_iff hfault h, ?before⟩, ?sixteen⟩
  case before =>
    intro k _ hk
    obtain ⟨rfl, -⟩ := step_raises hfault h hk
    exact raisesOnly_of_raise h
  case sixteen =>
    intro targets hempty hlength
    obtain ⟨t, hrun, hsp⟩ := runAll_calls (targets := targets) hfault (by omega)
    have hfull : t.sp.val = 16 := by omega
    exact ⟨t, hrun, hfull, fun nnn => raisesOnly_of_raise (exec_call_of_full nnn (by omega))⟩

end Sys2Proof
end

section
/-! Decoding as the inverse of encoding (30_encoding.md R54 to R57): what the decoder answers for every word. -/

namespace Sys2Proof

open Machine Claims

/-! ## A word is put together again from its fields -/

theorem encodeA_fields (w : OpWord) : encodeA (majorField w) (nnnField w) = w := by
  apply BitVec.eq_of_toNat_eq
  rw [encodeA_toNat, majorField_toNat, nnnField_toNat]
  omega

theorem encodeXK_fields (w : OpWord) : encodeXK (majorField w) (xField w) (nnField w) = w := by
  apply BitVec.eq_of_toNat_eq
  rw [encodeXK_toNat, majorField_toNat, xField_val, nnField_toNat]
  omega

theorem encodeXYN_fields (w : OpWord) : encodeXYN (majorField w) (xField w) (yField w) (nField w) = w := by
  apply BitVec.eq_of_toNat_eq
  rw [encodeXYN_toNat, majorField_toNat, xField_val, yField_val, nField_toNat]
  omega

section
variable {w : OpWord} {m n : BitVec 4} {nn : Byte}

theorem encodeA_of_major (hm : majorField w = m) : encodeA m (nnnField w) = w := hm ▸ encodeA_fields w

theorem encodeXK_of_fields (hm : majorField w = m) (hnn : nnField w = nn) : encodeXK m (xField w) nn = w :=
  hm ▸ hnn ▸ encodeXK_fields w

theorem encodeXYN_of_fields (hm : majorField w = m) (hn : nField w = n) :
    encodeXYN m (xField w) (yField w) n = w := hm ▸ hn ▸ encodeXYN_fields w

/-! ## Fields as digits of the word's number -/

theorem majorField_eq_iff : majorField w = m ↔ w.toNat / 4096 = m.toNat := by
  rw [← BitVec.toNat_inj, majorField_toNat]

theorem nField_eq_iff : nField w = n ↔ w.toNat % 16 = n.toNat := by
  rw [← BitVec.toNat_inj, nField_toNat]

theorem nnField_eq_iff : nnField w = nn ↔ w.toNat % 256 = nn.toNat := by
  rw [← BitVec.toNat_inj, nnField_toNat]

end

/-! ## What the decoder answers -/

/-- A right answer of the decoder for `w`: a well-formed instruction whose word is `w`, or a refusal of a word of the list
in 30_encoding.md R56. -/
def AnswersFor (w : OpWord) : Except Reject Instr → Prop
  | .ok i => i.wf = true ∧ encodeWord i = w
  | .error _ => Unmatched w

section
variable {w : OpWord}

theorem answersFor_ite {c : Prop} [Decidable c] {a b : Except Reject Instr} (hpos : c → AnswersFor w a)
    (hneg : ¬ c → AnswersFor w b) : AnswersFor w (if c then a else b) := iteInduction hpos hneg

theorem decode8_answers (hm : majorField w = 0x8#4) : AnswersFor w (decode8 w) := by
  unfold decode8
  iterate 9 refine answersFor_ite (fun hn => ⟨rfl, encodeXYN_of_fields hm hn⟩) fun _ => ?_
  simp only [nField_eq_iff, BitVec.toNat_ofNat] at *
  have hdigit : w.toNat % 16 ∈ [8, 9, 10, 11, 12, 13, 15] := by
    simp only [List.mem_cons, List.not_mem_nil]
    omega
  exact .inr (.inr (.inl ⟨majorField_eq_iff.mp hm, hdigit⟩))

theorem decodeF_answers (hm : majorField w = 0xF#4) : AnswersFor w (decodeF w) := by
  unfold decodeF
  iterate 9 refine answersFor_ite (fun hnn => ⟨rfl, encodeXK_of_fields hm hnn⟩) fun _ => ?_
  have hbyte : w.toNat % 256 ∉ [0x07, 0x0A, 0x15, 0x18, 0x1E, 0x29, 0x33, 0x55, 0x65] := by
    simp_all [nnField_eq_iff]
  exact .inr (.inr (.inr (.inr (.inr ⟨majorField_eq_iff.mp hm, hbyte⟩))))

theorem decodeWord_answers (w : OpWord) : AnswersFor w (decodeWord w) := by
  unfold decodeWord
  refine answersFor_ite (fun h0 => ?zero) fun h0 => ?_
  case zero =>
    refine answersFor_ite (fun h => ⟨rfl, h.symm⟩) fun hcls => ?_
    refine answersFor_ite (fun h => ⟨rfl, h.symm⟩) fun hret => ?_
    exact .inl ⟨majorField_eq_iff.mp h0, fun h => hcls (BitVec.eq_of_toNat_eq h), fun h => hret (BitVec.eq_of_toNat_eq h)⟩
  iterate 2 refine answersFor_ite (fun hm => ⟨rfl, encodeA_of_major hm⟩) fun _ => ?_
  iterate 2 refine answersFor_ite (fun hm => ⟨rfl, encodeXK_of_fields hm rfl⟩) fun _ => ?_
  refine answersFor_ite (fun h5 => ?five) fun _ => ?_
  case five =>
    refine answersFor_ite (fun hn => ⟨rfl, encodeXYN_of_fields h5 hn⟩) fun hn => ?_
    exact .inr (.inl ⟨majorField_eq_iff.mp h5, fun h => hn (nField_eq_iff.mpr h)⟩)
  iterate 2 refine answersFor_ite (fun hm => ⟨rfl, encodeXK_of_fields hm rfl⟩) fun _ => ?_
  refine answersFor_ite decode8_answers fun _ => ?_
  refine answersFor_ite (fun h9 => ?nine) fun _ => ?_
  case nine =>
    refine answersFor_ite (fun hn => ⟨rfl, encodeXYN_of_fields h9 hn⟩) fun hn => ?_
    exact .inr (.inr (.inr (.inl ⟨majorField_eq_iff.mp h9, fun h => hn (nField_eq_iff.mpr h)⟩)))
  iterate 2 refine answersFor_ite (fun hm => ⟨rfl, encodeA_of_major hm⟩) fun _ => ?_
  refine answersFor_ite (fun hm => ⟨rfl, encodeXK_of_fields hm rfl⟩) fun _ => ?_
  refine answersFor_ite (fun hD => ?sprite) fun _ => ?_
  case sprite =>
    have hn : (nField w).toNat ≤ 15 := Nat.le_of_lt_succ (nField w).isLt
    have hword : encodeWord (.drw (xField w) (yField w) (nField w).toNat) = w := by
      rw [encodeWord, BitVec.ofNat_toNat, BitVec.setWidth_eq]
      exact encodeXYN_of_fields hD rfl
    exact ⟨decide_eq_true hn, hword⟩
  refine answersFor_ite (fun hE => ?keys) fun _ => ?_
  case keys =>
    iterate 2 refine answersFor_ite (fun hnn => ⟨rfl, encodeXK_of_fields hE hnn⟩) fun _ => ?_
    have hbyte : w.toNat % 256 ∉ [0x9E, 0xA1] := by
      simp_all [nnField_eq_iff]
    exact .inr (.inr (.inr (.inr (.inl ⟨majorField_eq_iff.mp hE, hbyte⟩))))
  have hF : majorField w = 0xF#4 := by
    have hw := w.isLt
    simp only [majorField_eq_iff, BitVec.toNat_ofNat] at *
    omega
  exact decodeF_answers hF

end

theorem answersFor_of_eq {w : OpWord} {r : Except Reject Instr} (h : decodeWord w = r) : AnswersFor w r :=
  h ▸ decodeWord_answers w

/-! ## Rows of the opcode map -/

theorem matchesWord_encodeWord (i : Instr) : i.row.matchesWord (encodeWord i) = true := by
  cases i with
  | cls | ret => rfl
  | jp | call | ldI | jpV0 => exact matchesWord_of_eq (encodeA_and _ _) rfl
  | seImm | sneImm | ldImm | addImm | rnd => exact matchesWord_of_eq (encodeXK_and_major _ _ _) rfl
  | drw => exact matchesWord_of_eq (encodeXYN_and_major _ _ _ _) rfl
  | seReg | sneReg | ldReg | orReg | andReg | xorReg | addReg | subReg | shr | subn | shl =>
    exact matchesWord_of_eq (encodeXYN_and_nibble _ _ _ _) rfl
  | skp | sknp | ldVxDT | ldVxK | ldDTVx | ldSTVx | addI | ldF | ldB | storeRegs | loadRegs =>
    exact matchesWord_of_eq (encodeXK_and_byte _ _ _) rfl

theorem row_mem_opcodeMap (i : Instr) : i.row ∈ opcodeMap := by
  cases i <;> simp [opcodeMap, rowExemplars, Instr.row]

theorem exists_row_eq_of_mem {r : Row} (h : r ∈ opcodeMap) : ∃ j : Instr, j.row = r := by
  obtain ⟨j, -, hj⟩ := List.mem_map.mp h
  exact ⟨j, hj⟩

section
variable {w mask v : OpWord}

/-- A mask whose leading digit is F fixes the leading digit of the word; likewise for the last digit and the last two. -/
theorem major_of_and_eq (h : w &&& mask = v) (hmask : majorField mask = BitVec.allOnes 4) :
    w.toNat / 4096 = v.toNat / 4096 := by
  rw [← majorField_toNat, ← majorField_toNat, ← h]
  simp only [majorField] at *
  rw [BitVec.extractLsb'_and, hmask, BitVec.and_allOnes]

theorem nibble_of_and_eq (h : w &&& mask = v) (hmask : nField mask = BitVec.allOnes 4) :
    w.toNat % 16 = v.toNat % 16 := by
  rw [← nField_toNat, ← nField_toNat, ← h]
  simp only [nField] at *
  rw [BitVec.extractLsb'_and, hmask, BitVec.and_allOnes]

theorem byte_of_and_eq (h : w &&& mask = v) (hmask : nnField mask = BitVec.allOnes 8) :
    w.toNat % 256 = v.toNat % 256 := by
  rw [← nnField_toNat, ← nnField_toNat, ← h]
  simp only [nnField] at *
  rw [BitVec.extractLsb'_and, hmask, BitVec.and_allOnes]

end

/-- A word that has the fixed digits of a row decodes to an instruction of that row. -/
theorem decodeWord_of_matches_row {w : OpWord} (j : Instr) (h : w &&& j.row.mask = j.row.value) :
    ∃ i, decodeWord w = .ok i ∧ i.row = j.row := by
  cases j with
  | cls | ret =>
    have hw : w = _ := (BitVec.and_allOnes).symm.trans h
    exact hw ▸ ⟨_, rfl, rfl⟩
  | jp | call | ldI | jpV0 | seImm | sneImm | ldImm | addImm | rnd | drw =>
    have hm := major_of_and_eq (mask := 0xF000#16) h rfl
    simp [decodeWord, majorField_eq_iff, hm, Instr.row]
  | seReg | sneReg | ldReg | orReg | andReg | xorReg | addReg | subReg | shr | subn | shl =>
    have hm := major_of_and_eq (mask := 0xF00F#16) h rfl
    have hn := nibble_of_and_eq (mask := 0xF00F#16) h rfl
    simp [decodeWord, decode8, majorField_eq_iff, nField_eq_iff, hm, hn, Instr.row]
  | skp | sknp | ldVxDT | ldVxK | ldDTVx | ldSTVx | addI | ldF | ldB | storeRegs | loadRegs =>
    have hm := major_of_and_eq (mask := 0xF0FF#16) h rfl
    have hnn := byte_of_and_eq (mask := 0xF0FF#16) h rfl
    simp [decodeWord, decodeF, majorField_eq_iff, nnField_eq_iff, hm, hnn, Instr.row]

/-! ## Unmatched words -/

theorem encodeWord_not_unmatched (i : Instr) : ¬ Unmatched (encodeWord i) := by
  cases i with
  | cls | ret => simp [Unmatched, encodeWord]
  | jp | call | ldI | jpV0 => simp [Unmatched, encodeWord, ← majorField_toNat]
  | seImm | sneImm | ldImm | addImm | rnd | skp | sknp | ldVxDT | ldVxK | ldDTVx | ldSTVx | addI | ldF | ldB |
    storeRegs | loadRegs => simp [Unmatched, encodeWord, ← majorField_toNat, ← nnField_toNat]
  | seReg | sneReg | ldReg | orReg | andReg | xorReg | addReg | subReg | shr | subn | shl | drw =>
    simp [Unmatched, encodeWord, ← majorField_toNat, ← nField_toNat]

theorem decodeWord_error_of_unmatched {w : OpWord} (h : Unmatched w) : ∃ e, decodeWord w = .error e := by
  cases hdecode : decodeWord w with
  | error e => exact ⟨e, rfl⟩
  | ok i =>
    obtain ⟨-, rfl⟩ := answersFor_of_eq hdecode
    exact absurd h (encodeWord_not_unmatched i)

/-! ## The statements of 30_encoding.md -/

/-- Settles O8: by the formats, and since a word is put together again from its two bytes. -/
theorem decodeOfEncodeIsIdentity : Obligations.DecodeOfEncodeIsIdentity := by
  intro i hwf
  have hword : decodeWord (encodeWord i) = .ok i := decodeWord_encodeWord i hwf
  exact ⟨hword, fun rest => by simp [encode, decode, hword]⟩

/-- Settles O9: what the decoder answers for a word is right, a word that matches a row decodes into that row, and so two
rows it matches are both the row of the one instruction it decodes to. -/
theorem decodingIsExactMatchOfOneRow : Obligations.DecodingIsExactMatchOfOneRow := by
  refine ⟨?decoded, ?matched, ?oneRow, rfl⟩
  case decoded =>
    intro w i h
    obtain ⟨hwf, rfl⟩ := answersFor_of_eq h
    exact ⟨hwf, rfl, beq_iff_eq.mp (matchesWord_encodeWord i), row_mem_opcodeMap i⟩
  case matched =>
    intro w r hr h
    obtain ⟨j, rfl⟩ := exists_row_eq_of_mem hr
    exact decodeWord_of_matches_row j h
  case oneRow =>
    intro w r q hr hq hwr hwq
    obtain ⟨j, rfl⟩ := exists_row_eq_of_mem hr
    obtain ⟨k, rfl⟩ := exists_row_eq_of_mem hq
    obtain ⟨i, hi, hij⟩ := decodeWord_of_matches_row j hwr
    obtain ⟨i', hi', hik⟩ := decodeWord_of_matches_row k hwq
    obtain rfl : i = i' := Except.ok.inj (hi.symm.trans hi')
    exact hij.symm.trans hik

/-- Settles O10: a refusal is right by `decodeWord_answers`, and no instruction's word is in the list. -/
theorem rejectedWordsAreTheListedOnes : Obligations.RejectedWordsAreTheListedOnes := fun _ =>
  ⟨fun ⟨_, h⟩ => answersFor_of_eq h, decodeWord_error_of_unmatched⟩

/-- Settles O11: each word is evaluated. -/
theorem sampleWordsDecodeAsWritten : Obligations.SampleWordsDecodeAsWritten := by
  unfold Obligations.SampleWordsDecodeAsWritten
  decide

end Sys2Proof
end

section
/-! What an instruction can write and when it raises (10_state.md sections 2 to 10, 60_exceptions.md section 1). -/

namespace Sys2Proof

open Machine Claims

/-! ## Checked accesses -/

section
variable {α : Type} {s t : State} {r : Except Fault α} {go : α → State}

theorem orRaise_of_ok {a : α} (h : r = .ok a) : orRaise s r go = .next (go a) := h ▸ rfl

theorem orRaise_of_error {k : Fault} (h : r = .error k) : orRaise s r go = .next (s.raise k) := h ▸ rfl

theorem orRaise_cases (h : orRaise s r go = .next t) :
    (∃ a, r = .ok a ∧ t = go a) ∨ ∃ k, r = .error k ∧ t = s.raise k := by
  obtain ⟨a, hr, hgo⟩ | ⟨k, hr, hraise⟩ := orRaise_eq s r go
  · exact .inl ⟨a, hr, Host.Outcome.next.inj (h.symm.trans hgo)⟩
  · exact .inr ⟨k, hr, Host.Outcome.next.inj (h.symm.trans hraise)⟩

end

theorem readBlock_of_out {m : Memory} {base n : Nat} (h : base + n > 0x1000) :
    readBlock m base n = .error .invalidAddress := (readBlock_eq m base n).trans (if_pos h)

theorem writeBlock_of_out {m : Memory} {base : Nat} {bs : List Byte} (h : base + bs.length > 0x1000) :
    writeBlock m base bs = .error .invalidAddress := (writeBlock_eq m base bs).trans (if_pos h)

section
variable {s : State} (x y : Reg)

theorem exec_drw_of_out {n : Nat} (h : dataBase s + n > 0x1000) :
    exec (.drw x y n) s = .next (s.raise .invalidAddress) := orRaise_of_error (readBlock_of_out h)

theorem exec_ldB_of_out (h : dataBase s + 2 > 0xFFF) : exec (.ldB x) s = .next (s.raise .invalidAddress) :=
  orRaise_of_error (writeBlock_of_out (Nat.succ_lt_succ h))

theorem exec_storeRegs_of_out (h : dataBase s + x.val > 0xFFF) :
    exec (.storeRegs x) s = .next (s.raise .invalidAddress) := by
  refine orRaise_of_error (writeBlock_of_out ?_)
  rw [registersUpTo_length]
  exact Nat.succ_lt_succ h

theorem exec_loadRegs_of_out (h : dataBase s + x.val > 0xFFF) :
    exec (.loadRegs x) s = .next (s.raise .invalidAddress) :=
  orRaise_of_error (readBlock_of_out (Nat.succ_lt_succ h))

end

/-! ## Every instruction answers a next state -/

theorem exec_answers_next (i : Instr) (s : State) : ∃ t, exec i s = .next t := by
  cases i with
  | ret =>
    by_cases hsp : 0 < s.sp.val
    · exact ⟨_, exec_ret_of_nonempty hsp⟩
    · exact ⟨_, exec_ret_of_empty hsp⟩
  | call nnn =>
    by_cases hsp : s.sp.val < 16
    · exact ⟨_, exec_call_of_room nnn hsp⟩
    · exact ⟨_, exec_call_of_full nnn hsp⟩
  | drw | ldB | storeRegs | loadRegs =>
    obtain ⟨a, -, h⟩ | ⟨k, -, h⟩ := orRaise_eq s _ _ <;> exact ⟨_, h⟩
  | cls | jp | jpV0 | ldI | addI | ldF | ldVxDT | ldVxK | ldDTVx | ldSTVx | rnd | ldImm | addImm | ldReg | orReg |
    andReg | xorReg | addReg | subReg | shr | subn | shl | seImm | sneImm | seReg | sneReg | skp | sknp =>
    exact ⟨_, rfl⟩

theorem exec_of_raisesWhen {i : Instr} {s : State} {k : Fault} (h : RaisesWhen i s k) :
    exec i s = .next (s.raise k) := by
  obtain ⟨rfl, hsp, rfl⟩ | ⟨⟨nnn, rfl⟩, hsp, rfl⟩ | ⟨⟨x, y, n, rfl, hn, hout⟩, rfl⟩ | ⟨⟨x, rfl⟩, hout, rfl⟩ |
    ⟨⟨x, rfl | rfl, hout⟩, rfl⟩ := h
  · exact exec_ret_of_empty (by omega)
  · exact exec_call_of_full nnn (by omega)
  · have hblock : dataBase s + n > 0x1000 := by
      rw [dataBase]
      omega
    exact exec_drw_of_out x y hblock
  · exact exec_ldB_of_out x hout
  · exact exec_storeRegs_of_out x hout
  · exact exec_loadRegs_of_out x hout

/-- All a return can do (41_flow.md R85), and all a call can do (41_flow.md R87). -/
theorem exec_ret_cases {s t : State} (h : exec .ret s = .next t) :
    (∃ hsp : 0 < s.sp.val, t = (s.setPc (s.top hsp)).pop) ∨ s.sp.val = 0 ∧ t = s.raise .stackUnderflow := by
  by_cases hsp : 0 < s.sp.val
  · exact .inl ⟨hsp, Host.Outcome.next.inj (h.symm.trans (exec_ret_of_nonempty hsp))⟩
  · exact .inr ⟨Nat.eq_zero_of_not_pos hsp, Host.Outcome.next.inj (h.symm.trans (exec_ret_of_empty hsp))⟩

theorem exec_call_cases {s t : State} {nnn : Addr} (h : exec (.call nnn) s = .next t) :
    (∃ hsp : s.sp.val < 16, t = (s.push s.npc hsp).setPc nnn) ∨ ¬ s.sp.val < 16 ∧ t = s.raise .stackOverflow := by
  by_cases hsp : s.sp.val < 16
  · exact .inl ⟨hsp, Host.Outcome.next.inj (h.symm.trans (exec_call_of_room nnn hsp))⟩
  · exact .inr ⟨hsp, Host.Outcome.next.inj (h.symm.trans (exec_call_of_full nnn hsp))⟩

/-! ## The parts an instruction writes -/

/-- The parts of the state besides the registers, `pc` and the fault latch. They are compared as data, where `Part` compares
memory by what its addresses read as. -/
inductive Component where
  | keys | index | delay | sound | screen | memory | stack | wait | random

/-- A component is the same in two states. -/
def Component.Same (s t : State) : Component → Prop
  | .keys => t.key = s.key
  | .index => t.I = s.I
  | .delay => t.DT = s.DT
  | .sound => t.ST = s.ST
  | .screen => t.fb = s.fb
  | .memory => t.mem = s.mem
  | .stack => (t.sp, t.stack) = (s.sp, s.stack)
  | .wait => t.wait = s.wait
  | .random => (t.draws, t.randomInput) = (s.draws, s.randomInput)

/-- The instructions that may write a component. -/
def Component.WrittenBy (i : Instr) : Component → Prop
  | .keys => False
  | .index => (∃ nnn, i = .ldI nnn) ∨ (∃ x, i = .addI x) ∨ ∃ x, i = .ldF x
  | .delay => ∃ x, i = .ldDTVx x
  | .sound => ∃ x, i = .ldSTVx x
  | .screen => i = .cls ∨ ∃ x y n, i = .drw x y n
  | .memory => (∃ x, i = .ldB x) ∨ ∃ x, i = .storeRegs x
  | .stack => i = .ret ∨ ∃ nnn, i = .call nnn
  | .wait => ∃ x, i = .ldVxK x
  | .random => ∃ x nn, i = .rnd x nn

theorem Component.same_raise (s : State) (k : Fault) (c : Component) : c.Same s (s.raise k) := by cases c <;> rfl

theorem Component.same_skipIf (s : State) (taken : Bool) (c : Component) : c.Same s (s.skipIf taken) := by
  cases taken <;> cases c <;> rfl

/-- Only the instructions that name a component write it. -/
theorem exec_keeps_component {i : Instr} {s t : State} (h : exec i s = .next t) (c : Component)
    (hc : ¬ c.WrittenBy i) : c.Same s t := by
  cases i with
  | jp | jpV0 | ldVxDT | ldImm | addImm | ldReg | orReg | andReg | xorReg | addReg | subReg | shr | subn | shl =>
    cases h
    cases c <;> rfl
  | cls | ldI | addI | ldF | ldDTVx | ldSTVx | ldVxK | rnd =>
    cases h
    cases c <;> simp_all [Component.Same, Component.WrittenBy]
  | seImm | sneImm | seReg | sneReg | skp | sknp =>
    cases h
    exact c.same_skipIf s _
  | drw | ldB | storeRegs | loadRegs =>
    obtain ⟨a, -, rfl⟩ | ⟨k, -, rfl⟩ := orRaise_cases h
    · cases c <;> simp_all [Component.Same, Component.WrittenBy]
    · exact c.same_raise s k
  | ret =>
    obtain ⟨hsp, rfl⟩ | ⟨-, rfl⟩ := exec_ret_cases h
    · cases c <;> simp_all [Component.Same, Component.WrittenBy]
    · exact c.same_raise s _
  | call nnn =>
    obtain ⟨hsp, rfl⟩ | ⟨-, rfl⟩ := exec_call_cases h
    · cases c <;> simp_all [Component.Same, Component.WrittenBy]
    · exact c.same_raise s _

theorem writtenBy_of_exec {i : Instr} {s t : State} (h : exec i s = .next t) (c : Component) (hc : ¬ c.Same s t) :
    c.WrittenBy i := not_imp_comm.mp (exec_keeps_component h c) hc

/-! ## The registers an instruction writes -/

/-- The instruction may write the register. -/
def WritesReg (z : Reg) : Instr → Prop
  | .ldImm x _ | .addImm x _ | .rnd x _ | .ldVxDT x => z = x
  | .ldReg x _ | .orReg x _ | .andReg x _ | .xorReg x _ => z = x
  | .addReg x _ | .subReg x _ | .shr x _ | .subn x _ | .shl x _ => z = x ∨ z = regF
  | .drw _ _ _ => z = regF
  | .loadRegs x => z ≤ x
  | _ => False

/-- The registers above the loaded block stay. -/
theorem fillRegisters_above (V : Vector Byte 16) (bs : List Byte) {z : Reg} (h : bs.length ≤ z.val) :
    (fillRegisters V 0 bs)[z.val] = V[z.val] := by
  rw [fillRegisters_getElem]
  exact if_neg fun hz => by omega

theorem length_of_readBlock {m : Memory} {base n : Nat} {bs : List Byte} (h : readBlock m base n = .ok bs) :
    bs.length = n := by
  rw [readBlock_eq] at h
  split_ifs at h
  cases h
  simp

theorem exec_keeps_reg {i : Instr} {s t : State} (h : exec i s = .next t) {z : Reg} (hz : ¬ WritesReg z i) :
    t.getV z = s.getV z := by
  cases i with
  | cls | jp | jpV0 | ldI | addI | ldF | ldVxK | ldDTVx | ldSTVx =>
    cases h
    rfl
  | ldVxDT | rnd | ldImm | addImm | ldReg | orReg | andReg | xorReg =>
    cases h
    exact State.getV_setV_ne s _ z _ hz
  | addReg | subReg | shr | subn | shl =>
    cases h
    obtain ⟨hx, hF⟩ := not_or.mp hz
    rw [State.advance_getV, State.writeFlagThenResult_getV, if_neg hx, if_neg hF]
  | seImm | sneImm | seReg | sneReg | skp | sknp =>
    cases h
    exact State.skipIf_getV s _ z
  | drw x y n =>
    obtain ⟨a, -, rfl⟩ | ⟨k, -, rfl⟩ := orRaise_cases h
    · exact State.getV_setV_ne _ regF z _ hz
    · rfl
  | ldB | storeRegs =>
    obtain ⟨a, -, rfl⟩ | ⟨k, -, rfl⟩ := orRaise_cases h <;> rfl
  | loadRegs x =>
    obtain ⟨bs, hread, rfl⟩ | ⟨k, -, rfl⟩ := orRaise_cases h
    · have hlength : bs.length ≤ z.val := (length_of_readBlock hread).trans_le (Nat.lt_of_not_le hz)
      exact fillRegisters_above s.V bs hlength
    · rfl
  | ret => obtain ⟨hsp, rfl⟩ | ⟨-, rfl⟩ := exec_ret_cases h <;> rfl
  | call nnn => obtain ⟨hsp, rfl⟩ | ⟨-, rfl⟩ := exec_call_cases h <;> rfl

/-! ## The step -/

theorem step_of_fault {s : State} {k : Fault} (h : s.fault = some k) : step s = .fault k := by
  simp [step, cycle, h]

/-- Outside the faulted state a step answers a next state. -/
theorem step_answers_next {s : State} (h : s.fault = none) : ∃ t, step s = .next t := by
  cases hwait : s.wait with
  | some r => exact ⟨_, step_of_wait h hwait⟩
  | none =>
    by_cases hpc : s.pc = 0xFFF
    · exact ⟨_, step_of_pc_eq_top ⟨h, hwait⟩ hpc⟩
    · have hready : s.readyFor _ := ⟨⟨h, hwait⟩, (fetch_eq s).trans (if_neg hpc)⟩
      rw [step_of_readyFor hready]
      cases hdecode : decodeWord _ with
      | error e => exact ⟨_, runWord_of_error hdecode⟩
      | ok i =>
        rw [runWord_of_ok hdecode]
        exact exec_answers_next i s

theorem fault_eq_none_of_step {s t : State} (h : step s = .next t) : s.fault = none := by
  cases hfault : s.fault with
  | none => rfl
  | some k => cases h.symm.trans (step_of_fault hfault)

/-! ## The statements of 10_state.md and 60_exceptions.md on every instruction -/

/-- Settles O6: no instruction answers a fault, and a step does in the faulted state alone. -/
theorem stepFailsOnlyWhenFaulted : Obligations.StepFailsOnlyWhenFaulted := by
  refine ⟨exec_answers_next, fun s => ?_⟩
  cases hfault : s.fault with
  | none => exact .inl ⟨rfl, step_answers_next hfault⟩
  | some k => exact .inr ⟨k, rfl, step_of_fault hfault⟩

/-- Settles O7: on its listed condition an instruction answers the raise, and by `exec_fault` the latch is set on no
other. -/
theorem instructionsRaiseExactlyWhenSaid : Obligations.InstructionsRaiseExactlyWhenSaid := by
  intro i s hfault
  refine ⟨fun k hk => raisesOnly_of_raise (exec_of_raisesWhen hk), fun hnone => ?_⟩
  obtain ⟨t, h⟩ := exec_answers_next i s
  obtain hkept | ⟨k, hk, -⟩ := exec_fault h
  · exact ⟨t, h, hkept.trans hfault⟩
  · exact absurd hk (hnone k)

/-- Settles O47: each part is a component, which only the instructions that name it write. -/
theorem partsChangeOnlyByTheirInstructions : Obligations.PartsChangeOnlyByTheirInstructions := by
  intro i s t h
  exact ⟨exec_keeps_component h .keys not_false, writtenBy_of_exec h .index, writtenBy_of_exec h .delay,
    writtenBy_of_exec h .sound, writtenBy_of_exec h .screen, writtenBy_of_exec h .memory,
    fun hne => writtenBy_of_exec h .stack (mt Prod.mk.inj (not_and_or.mpr hne)), writtenBy_of_exec h .wait,
    fun hne => writtenBy_of_exec h .random (mt Prod.mk.inj (not_and_or.mpr hne))⟩

/-- Settles O48: an instruction that changes `VF` writes it, as its flag or as its destination; a block load reaches it
only with `x = 15`. -/
theorem flagRegisterChangesOnlyWhenNamed : Obligations.FlagRegisterChangesOnlyWhenNamed := by
  intro i s t h hne
  have hwrites : WritesReg regF i := not_imp_comm.mp (exec_keeps_reg h) hne
  cases i with
  | loadRegs x =>
    obtain rfl : x = regF := le_antisymm (Fin.le_last x) hwrites
    simp
  | _ => simp_all [WritesReg]

end Sys2Proof
end

section
/-! The step of 40_step_cycle.md section 1 and what the host sees of it: running, faulted and waiting. -/

namespace Sys2Proof

open Machine Claims

/-! ## Frames of single updates -/

theorem keepsParts_setWait (s : State) (w : Option Reg) : KeepsParts [.wait] s (s.setWait w) := by
  intro p hp
  cases p <;> simp_all [Part.same]

theorem keepsParts_mono {ps qs : List Part} {s t : State} (h : KeepsParts ps s t) (hsub : ps ⊆ qs) :
    KeepsParts qs s t := fun p hp => h p fun hps => hp (hsub hps)

/-! ## Fetch -/

/-- Below the top of memory a running machine is ready for the two bytes at `pc`. -/
theorem readyFor_of_lt {s : State} (hr : s.running) (hpc : s.pc.toNat < 0xFFF) :
    s.readyFor (wordOfBytes (Memory.byteAt s.mem s.pc.toNat) (Memory.byteAt s.mem (s.pc.toNat + 1))) :=
  ⟨hr, fetch_ok s hpc⟩

theorem decodeWord_of_decode {hi lo : Byte} {rest rest' : List Byte} {i : Instr}
    (h : decode (hi :: lo :: rest) = .ok (i, rest')) : decodeWord (wordOfBytes hi lo) = .ok i := by
  cases hword : decodeWord (wordOfBytes hi lo) <;> simp_all [decode]

/-! ## The wait state -/

theorem waitCheck_of_pressed {s : State} (r : Reg) {k : Reg} (h : lowestPressed s.key = some k) :
    waitCheck r s = (s.setV r (BitVec.ofNat 8 k.val)).setWait none := by
  rw [waitCheck, h]

theorem waitCheck_of_none {s : State} (r : Reg) (h : lowestPressed s.key = none) : waitCheck r s = s := by
  rw [waitCheck, h]

theorem keyByte_toNat (k : Reg) : (BitVec.ofNat 8 k.val).toNat = k.val := by
  have := k.isLt
  rw [BitVec.toNat_ofNat]
  omega

/-! ## The host's step -/

theorem stepWith_of_fault {s : State} {k : Fault} (rand : Byte) (h : s.fault = some k) :
    stepWith rand s = (.fail (.raised k) none, s) := by
  have hstep : step { s with randomInput := [rand] } = .fault k := step_of_fault h
  rw [stepWith, hstep]

theorem stepWith_of_next {s t : State} {rand : Byte} (h : step { s with randomInput := [rand] } = .next t) :
    stepWith rand s = (stepResponse t, { t with randomInput := s.randomInput }) := by
  rw [stepWith, h]

theorem stepResponse_of_no_fault {t : State} (h : t.fault = none) : stepResponse t = .ok := by
  rw [stepResponse, h]

/-! ## The statements of 40_step_cycle.md -/

/-- Settles O1: the fetch gives the word of the two bytes. -/
theorem stepRunsDecodedInstruction : Obligations.StepRunsDecodedInstruction := by
  intro s i hfault hwait hpc _ hdecode
  exact step_of_nextInstrIs ⟨_, readyFor_of_lt ⟨hfault, hwait⟩ hpc, decodeWord_of_decode hdecode⟩

/-- Settles O2: the decoder refuses the word, so the step is the no-op. -/
theorem unmatchedWordOnlyAdvances : Obligations.UnmatchedWordOnlyAdvances := by
  rintro s w hr hpc rfl hunmatched
  obtain ⟨e, herror⟩ := decodeWord_error_of_unmatched hunmatched
  have hstep : step s = .next (s.setPc s.npc) :=
    (step_of_readyFor (readyFor_of_lt hr hpc)).trans (runWord_of_error herror)
  exact onlyJumps_of_setPc hstep s.npc_toNat

/-- Settles O3: the latch is tested first. -/
theorem faultedStepFailsUnchanged : Obligations.FaultedStepFailsUnchanged := fun _ _ rand h =>
  ⟨step_of_fault h, stepWith_of_fault rand h⟩

/-- Settles O4: the step is `waitCheck`, and `lowestPressed` says which key it takes. -/
theorem waitingStepChecksKeys : Obligations.WaitingStepChecksKeys := by
  intro s r hfault hwait
  have hstep : step s = .next (waitCheck r s) := step_of_wait hfault hwait
  refine ⟨fun k hk hlower => ?pressed, fun hnone => ?none⟩
  case pressed =>
    rw [waitCheck_of_pressed r ((lowestPressed_some s.key k).mpr ⟨hk, hlower⟩)] at hstep
    refine ⟨_, hstep, ?_, rfl, rfl, keepsRegs_setV s r _, keepsParts_setWait (s.setV r _) none⟩
    rw [reg, State.setWait_getV, State.getV_setV_same, keyByte_toNat]
  case none =>
    rw [hstep, waitCheck_of_none r ((lowestPressed_none s.key).mpr hnone)]

/-- Settles O5: the fetch raises, and the host is told the address with the kind. -/
theorem fetchAtTopOfMemoryRaises : Obligations.FetchAtTopOfMemoryRaises := by
  intro s hr htop
  have hpc : s.pc = 0xFFF := BitVec.eq_of_toNat_eq htop
  refine ⟨raisesOnly_of_raise (step_of_pc_eq_top hr hpc), fun rand => ?_⟩
  have hstep : step { s with randomInput := [rand] } = _ := step_of_pc_eq_top hr hpc
  rw [stepWith_of_next hstep]
  rfl

/-- Settles O43: the instruction at `pc` is the jump there, which is the identity; the offered byte is not used. -/
theorem finishedProgramStays : Obligations.FinishedProgramStays := by
  intro s rand hfinished
  have hjump : decodeWord (encodeWord (.jp s.pc)) = .ok (.jp s.pc) := decodeWord_encodeWord _ rfl
  have hstep : step s = .next s := step_of_nextInstrIs ⟨_, hfinished, hjump⟩
  have hoffered : step { s with randomInput := [rand] } = .next { s with randomInput := [rand] } :=
    step_of_nextInstrIs (i := .jp s.pc) ⟨_, hfinished, hjump⟩
  obtain ⟨⟨hfault, -⟩, -⟩ := hfinished
  refine ⟨hstep, ?_⟩
  rw [stepWith_of_next hoffered, stepResponse_of_no_fault]
  exact hfault

end Sys2Proof
end

section
/-! The invariant of the machine, and what a latched error leaves possible (10_state.md section 10, 60_exceptions.md
section 1). -/

namespace Sys2Proof

open Machine Claims

/-! ## The invariant along steps -/

/-- A block write that fits keeps memory canonical, and no other instruction writes memory. -/
theorem exec_keeps_memory_wf {i : Instr} {s t : State} (h : exec i s = .next t) (hm : Memory.wf s.mem) :
    Memory.wf t.mem := by
  by_cases hw : Component.memory.WrittenBy i
  · obtain ⟨x, rfl⟩ | ⟨x, rfl⟩ := hw
    all_goals
      obtain ⟨m, hwrite, rfl⟩ | ⟨k, -, rfl⟩ := orRaise_cases h
      · exact wf_of_writeBlock _ _ _ _ hm hwrite
      · exact hm
  · have hsame : t.mem = s.mem := exec_keeps_component h .memory hw
    rwa [hsame]

@[simp] theorem waitCheck_mem (r : Reg) (s : State) : (waitCheck r s).mem = s.mem := by
  unfold waitCheck
  split <;> rfl

theorem step_keeps_memory_wf {s t : State} (h : step s = .next t) (hm : Memory.wf s.mem) : Memory.wf t.mem := by
  obtain ⟨r, -, rfl⟩ | ⟨-, rfl⟩ | ⟨w, e, -, -, rfl⟩ | ⟨i, -, hexec⟩ := step_cases (fault_eq_none_of_step h) h
  · rwa [waitCheck_mem]
  · exact hm
  · exact hm
  · exact exec_keeps_memory_wf hexec hm

/-- Nothing raises in the wait state (40_step_cycle.md R72). -/
theorem not_waiting_of_step_raises {s t : State} {k : Fault} (h : step s = .next t) (hk : t.fault = some k) :
    s.wait = none := by
  have hfault : s.fault = none := fault_eq_none_of_step h
  cases hwait : s.wait with
  | none => rfl
  | some r =>
    rw [step_of_wait hfault hwait] at h
    cases h
    rw [waitCheck_fault, hfault] at hk
    cases hk

/-- A step that sets the fault latch has raised and so left the wait latch as it was. -/
theorem step_keeps_latches {s t : State} (h : step s = .next t) : t.fault = none ∨ t.wait = none := by
  cases hk : t.fault with
  | none => exact .inl rfl
  | some k =>
    have hwait : s.wait = none := not_waiting_of_step_raises h hk
    obtain ⟨rfl, -⟩ := step_raises (fault_eq_none_of_step h) h hk
    exact .inr hwait

theorem step_keeps_inv {s t : State} (hs : s.Inv) (h : step s = .next t) : t.Inv :=
  ⟨step_keeps_memory_wf h hs.1, step_keeps_latches h⟩

/-! ## The invariant along runs of the host -/

theorem inv_reset : State.reset.Inv := ⟨Memory.wf_nil, .inl rfl⟩

theorem copyRom_eq_setBytes (m : Memory) (a : Nat) (rom : List Byte) : copyRom m a rom = Memory.setBytes m a rom := by
  induction rom generalizing m a with
  | nil => rfl
  | cons b rom ih => exact ih _ _

theorem loadProgram_of_fits {rom : List Byte} (s : State) (h : rom.length ≤ 3584) :
    loadProgram rom s = (.ok, (hostReset s).setMem (Memory.setBytes [] 0x200 rom)) := by
  have hwf : romWf rom = true := decide_eq_true h
  rw [loadProgram, if_pos hwf, copyRom_eq_setBytes]
  rfl

theorem loadProgram_of_too_large {rom : List Byte} (s : State) (h : rom.length > 3584) :
    loadProgram rom s = (.fail .programTooLarge none, s) := by
  have hwf : ¬ romWf rom = true := fun hrom => Nat.not_le_of_lt h (of_decide_eq_true hrom)
  rw [loadProgram, if_neg hwf]

theorem wf_loaded {rom : List Byte} (h : rom.length ≤ 3584) : Memory.wf (Memory.setBytes [] 0x200 rom) :=
  Memory.wf_setBytes _ _ _ Memory.wf_nil (Nat.add_le_add_left h 0x200)

theorem perform_keeps_inv (op : HostOp) {s : State} (hs : s.Inv) : (perform op s).2.Inv := by
  cases op with
  | reset => exact inv_reset
  | tick60Hz | setInputState | readFramebuffer => exact hs
  | loadProgram rom =>
    by_cases hrom : rom.length ≤ 3584
    · rw [perform, loadProgram_of_fits s hrom]
      exact ⟨wf_loaded hrom, .inl rfl⟩
    · rw [perform, loadProgram_of_too_large s (Nat.lt_of_not_le hrom)]
      exact hs
  | step rand =>
    cases hfault : s.fault with
    | some k =>
      rw [perform, stepWith_of_fault rand hfault]
      exact hs
    | none =>
      obtain ⟨t, hstep⟩ := step_answers_next (s := { s with randomInput := [rand] }) hfault
      have ht : t.Inv := step_keeps_inv (s := { s with randomInput := [rand] }) hs hstep
      rw [perform, stepWith_of_next hstep]
      exact ht

/-! ## A latched error -/

theorem part_same_trans {s t u : State} {p : Part} (h : Part.same s t p) (h' : Part.same t u p) :
    Part.same s u p := by
  cases p with
  | memory => exact fun a => (h' a).trans (h a)
  | stack | random => exact ⟨h'.1.trans h.1, h'.2.trans h.2⟩
  | index | delay | sound | screen | keys | wait | fault => exact h'.trans h

theorem keepsParts_refl (parts : List Part) (s : State) : KeepsParts parts s s := by
  intro p _
  cases p <;> simp [Part.same]

/-- Nothing has changed but what the host can change in every state: the timers and the keys
(46_host_operations.md sections 1 and 2). -/
def OnlyTimersAndKeysChange (s t : State) : Prop :=
  t.pc = s.pc ∧ KeepsRegs [] s t ∧ KeepsParts [.delay, .sound, .keys] s t

namespace OnlyTimersAndKeysChange

theorem refl (s : State) : OnlyTimersAndKeysChange s s := ⟨rfl, fun _ _ => rfl, keepsParts_refl _ s⟩

theorem trans {s t u : State} (h : OnlyTimersAndKeysChange s t) (h' : OnlyTimersAndKeysChange t u) :
    OnlyTimersAndKeysChange s u := by
  obtain ⟨hpc, hregs, hparts⟩ := h
  obtain ⟨hpc', hregs', hparts'⟩ := h'
  exact ⟨hpc'.trans hpc, fun z hz => (hregs' z hz).trans (hregs z hz),
    fun p hp => part_same_trans (hparts p hp) (hparts' p hp)⟩

theorem fault {s t : State} (h : OnlyTimersAndKeysChange s t) : t.fault = s.fault := by
  obtain ⟨-, -, hparts⟩ := h
  exact hparts .fault (by decide)

end OnlyTimersAndKeysChange

theorem keepsParts_tick60Hz (s : State) : KeepsParts [.delay, .sound] s (tick60Hz s) := by
  intro p hp
  cases p <;> simp_all [Part.same, tick60Hz]

theorem keepsParts_setInputState (v : Keys) (s : State) : KeepsParts [.keys] s (setInputState v s) := by
  intro p hp
  cases p <;> simp_all [Part.same, setInputState]

/-- The operations that leave a latched error alone: neither a reset nor a load that succeeds. -/
def KeepsLatch (op : HostOp) : Prop := op ≠ .reset ∧ ∀ rom, op = .loadProgram rom → rom.length > 3584

theorem perform_of_latched {s : State} {k : Fault} {op : HostOp} (hfault : s.fault = some k) (hop : KeepsLatch op) :
    OnlyTimersAndKeysChange s (perform op s).2 ∧
      ∀ rand, op = .step rand → (perform op s).1 = .fail (.raised k) none := by
  obtain ⟨hreset, hload⟩ := hop
  cases op with
  | reset => exact absurd rfl hreset
  | loadProgram rom =>
    rw [perform, loadProgram_of_too_large s (hload rom rfl)]
    exact ⟨.refl s, nofun⟩
  | step rand =>
    rw [perform, stepWith_of_fault rand hfault]
    exact ⟨.refl s, fun _ _ => rfl⟩
  | tick60Hz => exact ⟨⟨rfl, fun _ _ => rfl, keepsParts_mono (keepsParts_tick60Hz s) (by simp)⟩, nofun⟩
  | setInputState v => exact ⟨⟨rfl, fun _ _ => rfl, keepsParts_mono (keepsParts_setInputState v s) (by simp)⟩, nofun⟩
  | readFramebuffer => exact ⟨.refl s, nofun⟩

theorem performAll_of_latched {ops : List HostOp} {s : State} {k : Fault} (hfault : s.fault = some k)
    (hops : ∀ op ∈ ops, KeepsLatch op) :
    OnlyTimersAndKeysChange s (performAll ops s).2 ∧
      ∀ (n : Nat) (rand : Byte), ops[n]? = some (.step rand) →
        (performAll ops s).1[n]? = some (.fail (.raised k) none) := by
  induction ops generalizing s with
  | nil => exact ⟨.refl s, nofun⟩
  | cons op ops ih =>
    obtain ⟨hop, hrest⟩ := List.forall_mem_cons.mp hops
    obtain ⟨hfirst, hresponse⟩ := perform_of_latched hfault hop
    obtain ⟨hothers, hresponses⟩ := ih (hfirst.fault.trans hfault) hrest
    refine ⟨hfirst.trans hothers, fun n rand hn => ?_⟩
    cases n with
    | zero => exact congrArg some (hresponse rand (Option.some.inj hn))
    | succ n => exact hresponses n rand hn

/-! ## The statements on the whole machine -/

/-- Settles O44: at reset memory lists no cell and both latches are clear. -/
theorem invariantHoldsAtReset : Obligations.InvariantHoldsAtReset := inv_reset

/-- Settles O45: memory and latches apart. -/
theorem stepKeepsInvariant : Obligations.StepKeepsInvariant := fun _ _ => step_keeps_inv

/-- Settles O46: by induction on the operations, each of which keeps the invariant. -/
theorem everyRunKeepsInvariant : Obligations.EveryRunKeepsInvariant := by
  intro ops
  induction ops with
  | nil => exact fun _ hs => hs
  | cons op ops ih => exact fun s hs => ih _ (perform_keeps_inv op hs)

/-- Settles O42: by induction on the operations, each of which leaves the latch as it is. -/
theorem latchedFaultStaysUntilResetOrLoad : Obligations.LatchedFaultStaysUntilResetOrLoad := by
  intro ops s k hfault hops
  obtain ⟨⟨hpc, hregs, hparts⟩, hresponses⟩ := performAll_of_latched hfault hops
  exact ⟨hpc, hregs, hparts, hresponses⟩

/-- Settles O39: each operation is one update of its own parts, whatever the latches hold. -/
theorem tickAndInputChangeOnlyTheirParts : Obligations.TickAndInputChangeOnlyTheirParts := fun s v =>
  ⟨⟨countDown_toNat s.DT, countDown_toNat s.ST, rfl, fun _ _ => rfl, keepsParts_tick60Hz s⟩,
    ⟨rfl, rfl, fun _ _ => rfl, keepsParts_setInputState v s⟩⟩

end Sys2Proof
end

section
/-! Noninterference: the parts of the state that few instructions read, and call-stack entries that none reads
(10_state.md sections 3 and 5, 40_step_cycle.md section 3). -/

namespace Sys2Proof

open Machine Claims

/-! ## Rewriting the parts that few instructions read -/

/-- What is put in the place of the call-stack entries, the keys and the random source. -/
structure Rewrite where
  stack : Vector Addr Config.stackDepth → Vector Addr Config.stackDepth := id
  keys : Keys → Keys := id
  bytes : List Byte → List Byte := id
  draws : Nat → Nat := id

/-- The state with those parts rewritten. -/
def Rewrite.apply (f : Rewrite) (s : State) : State :=
  { s with
    stack := f.stack s.stack, key := f.keys s.key, randomInput := f.bytes s.randomInput, draws := f.draws s.draws }

/-- Puts other call-stack entries in place, live ones included. -/
def otherStack (W : Vector Addr Config.stackDepth) : Rewrite where
  stack := fun _ => W

/-- Puts another input vector in place. -/
def otherKeys (v : Keys) : Rewrite where
  keys := fun _ => v

/-- Puts another random source in place. -/
def otherRandom (bytes : List Byte) (n : Nat) : Rewrite where
  bytes := fun _ => bytes
  draws := fun _ => n

/-- The parts that are not left as they are, are none that the instruction reads or writes. -/
structure Rewrite.Unread (f : Rewrite) (i : Instr) : Prop where
  stack : f.stack = id ∨ ¬ Component.stack.WrittenBy i
  keys : f.keys = id ∨ ∀ x, i ≠ .skp x ∧ i ≠ .sknp x
  random : (f.bytes = id ∧ f.draws = id) ∨ ¬ Component.random.WrittenBy i

section
variable {f : Rewrite} {s t : State}

theorem Rewrite.apply_skipIf (f : Rewrite) (s : State) (taken : Bool) :
    (f.apply s).skipIf taken = f.apply (s.skipIf taken) := by
  cases taken <;> rfl

/-- A checked access whose continuation commutes with the rewriting commutes with it, since a raise does. -/
theorem orRaise_apply {α : Type} {r : Except Fault α} {go go' : α → State} (hgo : ∀ a, go' a = f.apply (go a))
    (h : orRaise s r go = .next t) : orRaise (f.apply s) r go' = .next (f.apply t) := by
  obtain ⟨a, hr, rfl⟩ | ⟨k, hr, rfl⟩ := orRaise_cases h
  · rw [orRaise_of_ok hr, hgo a]
  · exact orRaise_of_error hr

/-- An instruction commutes with the rewriting of parts that it neither reads nor writes. -/
theorem exec_apply {i : Instr} (hf : f.Unread i) (h : exec i s = .next t) :
    exec i (f.apply s) = .next (f.apply t) := by
  obtain ⟨hstack, hkeys, hrandom⟩ := hf
  obtain ⟨stack, keys, bytes, draws⟩ := f
  cases i with
  | jp | jpV0 | ldI | addI | ldF | cls | ldVxDT | ldVxK | ldDTVx | ldSTVx | ldImm | addImm | ldReg | orReg | andReg |
    xorReg | addReg | subReg | shr | subn | shl =>
    cases h
    rfl
  | seImm | sneImm | seReg | sneReg =>
    cases h
    exact congrArg Host.Outcome.next (Rewrite.apply_skipIf _ s _)
  | drw | ldB | storeRegs | loadRegs => exact orRaise_apply (fun _ => rfl) h
  | skp x | sknp x =>
    obtain rfl : keys = id := hkeys.resolve_right fun hne => by simpa using hne x
    cases h
    exact congrArg Host.Outcome.next (Rewrite.apply_skipIf _ s _)
  | rnd x nn =>
    obtain ⟨hbytes, hdraws⟩ := hrandom.resolve_right (not_not_intro ⟨x, nn, rfl⟩)
    obtain rfl : bytes = id := hbytes
    obtain rfl : draws = id := hdraws
    cases h
    rfl
  | ret =>
    obtain rfl : stack = id := hstack.resolve_right (not_not_intro (.inl rfl))
    obtain ⟨hsp, rfl⟩ | ⟨hsp, rfl⟩ := exec_ret_cases h
    · exact exec_ret_of_nonempty (s := Rewrite.apply _ s) hsp
    · exact exec_ret_of_empty (s := Rewrite.apply _ s) (Nat.not_lt.mpr hsp.le)
  | call nnn =>
    obtain rfl : stack = id := hstack.resolve_right (not_not_intro (.inr ⟨nnn, rfl⟩))
    obtain ⟨hsp, rfl⟩ | ⟨hsp, rfl⟩ := exec_call_cases h
    · exact exec_call_of_room (s := Rewrite.apply _ s) nnn hsp
    · exact exec_call_of_full (s := Rewrite.apply _ s) nnn hsp

theorem waitCheck_apply (hkeys : f.keys = id) (r : Reg) (s : State) :
    waitCheck r (f.apply s) = f.apply (waitCheck r s) := by
  have hkey : (f.apply s).key = s.key := congrFun hkeys s.key
  cases hlow : lowestPressed s.key with
  | none => rw [waitCheck_of_none r hlow, waitCheck_of_none r (hkey ▸ hlow)]
  | some k =>
    rw [waitCheck_of_pressed r hlow, waitCheck_of_pressed r (hkey ▸ hlow)]
    rfl

/-- No rewritten part has to do with the fetch. -/
theorem nextInstrIs_apply {i : Instr} (h : NextInstrIs s i) : NextInstrIs (f.apply s) i := h

theorem waitCheck_same_stack (r : Reg) (s : State) : Component.stack.Same s (waitCheck r s) := by
  unfold waitCheck
  split <;> rfl

/-- A step that runs no instruction commutes with the rewriting, of the keys only outside the wait state; one that runs an
instruction runs the same one on the rewritten state. -/
theorem step_apply (hkeys : f.keys = id ∨ s.wait = none) (h : step s = .next t) :
    (Component.stack.Same s t ∧ step (f.apply s) = .next (f.apply t)) ∨
      ∃ i, NextInstrIs s i ∧ exec i s = .next t ∧ step (f.apply s) = exec i (f.apply s) := by
  have hfault : s.fault = none := fault_eq_none_of_step h
  obtain ⟨r, hwait, rfl⟩ | ⟨hpc, rfl⟩ | ⟨w, e, hready, hdecode, rfl⟩ | ⟨i, hi, hexec⟩ := step_cases hfault h
  · have hid : f.keys = id := hkeys.resolve_right (by simp [hwait])
    exact .inl ⟨waitCheck_same_stack r s, waitCheck_apply hid r s ▸ step_of_wait (s := f.apply s) hfault hwait⟩
  · have hrunning : s.running := ⟨hfault, not_waiting_of_step_raises h rfl⟩
    exact .inl ⟨rfl, step_of_pc_eq_top (s := f.apply s) hrunning hpc⟩
  · exact .inl ⟨rfl, (step_of_readyFor (s := f.apply s) hready).trans (runWord_of_error hdecode)⟩
  · exact .inr ⟨i, hi, hexec, step_of_nextInstrIs (nextInstrIs_apply hi)⟩

/-- So a step commutes with the rewriting of parts that its instruction, if it runs one, neither reads nor writes. -/
theorem step_apply_of_unread (hkeys : f.keys = id ∨ s.wait = none) (hf : ∀ i, NextInstrIs s i → f.Unread i)
    (h : step s = .next t) : step (f.apply s) = .next (f.apply t) := by
  obtain ⟨-, hstep⟩ | ⟨i, hi, hexec, hstep⟩ := step_apply hkeys h
  · exact hstep
  · exact hstep.trans (exec_apply (hf i hi) hexec)

end

/-! ## Dead call-stack entries -/

/-- The entries of `W` below `sp` are those of the state's own stack. -/
def LiveEntriesAre (s : State) (W : Vector Addr Config.stackDepth) : Prop :=
  ∀ j (h : j < 16), j < s.sp.val → W[j] = s.stack[j]

section
variable {s t : State} {W : Vector Addr Config.stackDepth}

theorem sameUpToDeadStack_otherStack (h : LiveEntriesAre s W) : SameUpToDeadStack s ((otherStack W).apply s) := ⟨rfl, h⟩

theorem liveEntriesAre_of_same (hsame : Component.stack.Same s t) (h : LiveEntriesAre s W) : LiveEntriesAre t W := by
  obtain ⟨hsp, hstack⟩ := Prod.mk.inj hsame
  rw [LiveEntriesAre, hsp, hstack]
  exact h

/-- `RET` reads a live entry, and `CALL` writes the entry it makes live. -/
theorem exec_ignores_dead_stack {i : Instr} (hW : LiveEntriesAre s W) (h : exec i s = .next t) :
    ∃ u, exec i ((otherStack W).apply s) = .next u ∧ SameUpToDeadStack t u := by
  by_cases hwrites : Component.stack.WrittenBy i
  · obtain rfl | ⟨nnn, rfl⟩ := hwrites
    · obtain ⟨hsp, rfl⟩ | ⟨hsp, rfl⟩ := exec_ret_cases h
      · have htop : ((otherStack W).apply s).top hsp = s.top hsp := hW _ _ (Nat.sub_one_lt_of_lt hsp)
        refine ⟨_, exec_ret_of_nonempty (s := (otherStack W).apply s) hsp, ?_, ?_⟩
        · rw [htop]
          rfl
        · exact fun j hj hlt => hW j hj (Nat.lt_of_lt_pred hlt)
      · exact ⟨_, exec_ret_of_empty (s := (otherStack W).apply s) (Nat.not_lt.mpr hsp.le), rfl, hW⟩
    · obtain ⟨hsp, rfl⟩ | ⟨hsp, rfl⟩ := exec_call_cases h
      · refine ⟨_, exec_call_of_room (s := (otherStack W).apply s) nnn hsp, rfl, fun j hj hlt => ?_⟩
        show (W.set s.sp.val s.npc)[j] = (s.stack.set s.sp.val s.npc)[j]
        by_cases hj' : s.sp.val = j
        · simp [hj']
        · have hlt' : j < s.sp.val + 1 := hlt
          simp only [Vector.getElem_set, if_neg hj']
          exact hW j hj (by omega)
      · exact ⟨_, exec_call_of_full (s := (otherStack W).apply s) nnn hsp, rfl, hW⟩
  · have hunread : (otherStack W).Unread i := ⟨.inr hwrites, .inl rfl, .inl ⟨rfl, rfl⟩⟩
    have hsame : Component.stack.Same s t := exec_keeps_component h .stack hwrites
    exact ⟨_, exec_apply hunread h, sameUpToDeadStack_otherStack (liveEntriesAre_of_same hsame hW)⟩

theorem step_ignores_dead_stack (hW : LiveEntriesAre s W) (h : step s = .next t) :
    ∃ u, step ((otherStack W).apply s) = .next u ∧ SameUpToDeadStack t u := by
  obtain ⟨hsame, hstep⟩ | ⟨i, -, hexec, hstep⟩ := step_apply (f := otherStack W) (.inl rfl) h
  · exact ⟨_, hstep, sameUpToDeadStack_otherStack (liveEntriesAre_of_same hsame hW)⟩
  · rw [hstep]
    exact exec_ignores_dead_stack hW hexec

end

/-- The fault outcome is the answer of the faulted state. -/
theorem fault_of_step_fault {s : State} {k : Fault} (h : step s = .fault k) : s.fault = some k := by
  cases hfault : s.fault with
  | none =>
    obtain ⟨t, ht⟩ := step_answers_next hfault
    cases h.symm.trans ht
  | some k' =>
    cases h.symm.trans (step_of_fault hfault)
    rfl

/-! ## The statements on what is not read -/

/-- Settles O49: the second state is the first with another stack whose live entries are the same. -/
theorem deadStackEntriesCannotBeObserved : Obligations.DeadStackEntriesCannotBeObserved := by
  rintro s t ⟨ht, hlive⟩
  refine ⟨fun s' h => ?next, fun k h => ?fault⟩
  case next =>
    rw [ht]
    exact step_ignores_dead_stack hlive h
  case fault =>
    have hfault : t.fault = some k := by
      rw [ht]
      exact fault_of_step_fault (s := s) h
    exact step_of_fault hfault

/-- Settles O50: only `Cxnn` reads or writes the random source. -/
theorem onlyRndDependsOnRandomSource : Obligations.OnlyRndDependsOnRandomSource := by
  intro s t bytes n hrnd h
  have hunread (i : Instr) (hi : NextInstrIs s i) : (otherRandom bytes n).Unread i :=
    ⟨.inl rfl, .inl rfl, .inr fun ⟨x, nn, hw⟩ => hrnd x nn (hw ▸ hi)⟩
  exact step_apply_of_unread (f := otherRandom bytes n) (.inl rfl) hunread h

/-- Settles O51: outside the wait state only the two skips read the keys. -/
theorem onlyKeyInstructionsDependOnKeys : Obligations.OnlyKeyInstructionsDependOnKeys := by
  intro s t v hwait hskips h
  have hunread (i : Instr) (hi : NextInstrIs s i) : (otherKeys v).Unread i :=
    ⟨.inl rfl, .inr fun x => (hskips x).imp (fun hn hw => hn (hw ▸ hi)) fun hn hw => hn (hw ▸ hi), .inl ⟨rfl, rfl⟩⟩
  exact step_apply_of_unread (f := otherKeys v) (.inr hwait) hunread h

end Sys2Proof
end

section
/-! The call stack (41_flow.md R85, R87, 10_state.md section 3): what a call pushes, a return pops, and a well-nested run
leaves. -/

namespace Sys2Proof

open Machine Claims

/-! ## Frames -/

section
variable {s u : State} {parts : List Part}

theorem keepsParts_of_setPc (a : Addr) (h : KeepsParts parts s u) : KeepsParts parts s (u.setPc a) := by
  intro p hp
  have hsame : Part.same s u p := h p hp
  cases p <;> exact hsame

theorem keepsParts_push (a : Addr) (hsp : s.sp.val < 16) : KeepsParts [.stack] s (s.push a hsp) := by
  intro p hp
  cases p <;> simp_all [Part.same]

theorem keepsParts_pop : KeepsParts [.stack] s s.pop := by
  intro p hp
  cases p <;> simp_all [Part.same]

theorem top_eq_getElem {j : Nat} (hj : j < 16) (h : s.sp.val = j + 1) (hsp : 0 < s.sp.val) :
    s.top hsp = s.stack[j] := by
  simp [State.top, h]

end

/-! ## Running instructions one after another -/

section
variable {s t : State} {i : Instr} {is js : List Instr}

theorem runAll_cons_some (h : runAll (i :: is) s = some t) :
    ∃ u, exec i s = .next u ∧ u.fault = none ∧ runAll is u = some t := by
  obtain ⟨u, hu⟩ := exec_answers_next i s
  rw [runAll, hu] at h
  dsimp only at h
  split_ifs at h with hfault
  exact ⟨u, hu, hfault, h⟩

theorem runAll_append_some (h : runAll (is ++ js) s = some t) :
    ∃ u, runAll is s = some u ∧ runAll js u = some t := by
  induction is generalizing s with
  | nil => exact ⟨s, rfl, h⟩
  | cons i is ih =>
    obtain ⟨u, hexec, hfault, hrest⟩ := runAll_cons_some h
    obtain ⟨v, his, hjs⟩ := ih hrest
    refine ⟨v, ?_, hjs⟩
    rw [runAll, hexec]
    exact (if_pos hfault).trans his

end

/-! ## Live call-stack entries -/

/-- The call stack is as deep and has the same live entries. -/
def SameLiveStack (s t : State) : Prop :=
  t.sp = s.sp ∧ ∀ j (h : j < 16), j < s.sp.val → t.stack[j] = s.stack[j]

theorem SameLiveStack.trans {s t u : State} (h : SameLiveStack s t) (h' : SameLiveStack t u) : SameLiveStack s u := by
  obtain ⟨hsp, hlive⟩ := h
  obtain ⟨hsp', hlive'⟩ := h'
  exact ⟨hsp'.trans hsp, fun j hj hlt => (hlive' j hj (hsp ▸ hlt)).trans (hlive j hj hlt)⟩

section
variable {s t : State}

theorem sameLiveStack_of_same (h : Component.stack.Same s t) : SameLiveStack s t := by
  obtain ⟨hsp, hstack⟩ := Prod.mk.inj h
  exact ⟨hsp, fun j hj _ => by rw [hstack]⟩

/-- A call whose body leaves the live stack as it found it comes back behind itself, and the rest runs from there. -/
theorem runAll_call_body_ret {nnn : Addr} {body is : List Instr}
    (hbody : ∀ u v, runAll body u = some v → SameLiveStack u v)
    (h : runAll (.call nnn :: body ++ .ret :: is) s = some t) :
    ∃ u, u.pc = s.npc ∧ SameLiveStack s u ∧ runAll is u = some t := by
  obtain ⟨s₁, hcall, hfault₁, hrest⟩ := runAll_cons_some h
  obtain ⟨s₂, hrun, hret⟩ := runAll_append_some hrest
  obtain ⟨s₃, hexec, hfault₃, his⟩ := runAll_cons_some hret
  obtain ⟨hroom, rfl⟩ | ⟨-, rfl⟩ := exec_call_cases hcall
  case inr => cases hfault₁
  obtain ⟨hsp, hlive⟩ := hbody _ _ hrun
  have hdepth : s₂.sp.val = s.sp.val + 1 := congrArg Fin.val hsp
  obtain ⟨hpos, rfl⟩ | ⟨hzero, -⟩ := exec_ret_cases hexec
  case inr => omega
  refine ⟨_, ?pc, ⟨Fin.ext (Nat.sub_eq_of_eq_add hdepth), fun j hj hlt => ?live⟩, his⟩
  case pc =>
    have hpushed : s₂.stack[s.sp.val] = (s.stack.set s.sp.val s.npc)[s.sp.val] :=
      hlive s.sp.val hroom (Nat.lt_succ_self _)
    calc s₂.top hpos = s₂.stack[s.sp.val] := top_eq_getElem hroom hdepth hpos
      _ = s.npc := by rw [hpushed, Vector.getElem_set_self]
  case live =>
    have hkept : s₂.stack[j] = (s.stack.set s.sp.val s.npc)[j] := hlive j hj (Nat.lt_succ_of_lt hlt)
    show s₂.stack[j] = s.stack[j]
    rw [hkept, Vector.getElem_set_ne _ _ (Nat.ne_of_gt hlt)]

end

/-- A well-nested run that completes leaves the live stack as it found it. -/
theorem sameLiveStack_of_wellNested {is : List Instr} (h : WellNested is) {s t : State} (hrun : runAll is s = some t) :
    SameLiveStack s t := by
  induction h generalizing s t with
  | nil =>
    cases hrun
    exact ⟨rfl, fun _ _ _ => rfl⟩
  | plain i is hr hc _ ih =>
    obtain ⟨u, hexec, -, hrest⟩ := runAll_cons_some hrun
    have hnot : ¬ Component.stack.WrittenBy i := not_or.mpr ⟨hr, not_exists.mpr hc⟩
    exact (sameLiveStack_of_same (exec_keeps_component hexec .stack hnot)).trans (ih hrest)
  | nest nnn body is _ _ ihbody ihrest =>
    obtain ⟨u, -, hsame, hrest⟩ := runAll_call_body_ret (fun _ _ => ihbody) hrun
    exact hsame.trans (ihrest hrest)

/-! ## The statements of 41_flow.md on calls and returns -/

/-- Settles O15: the entry at `sp` takes the address after the call, and the others stay. -/
theorem callPushesReturnAddress : Obligations.CallPushesReturnAddress := by
  intro s nnn
  refine ⟨fun hroom => ?room, fun hfull => raisesOnly_of_raise (exec_call_of_full nnn (by omega))⟩
  refine ⟨_, exec_call_of_room nnn hroom, rfl, rfl, fun j hj => ?_, fun _ _ => rfl,
    keepsParts_of_setPc nnn (keepsParts_push s.npc hroom)⟩
  show ((s.stack.set s.sp.val s.npc)[j]).toNat = _
  by_cases hsp : j = s.sp.val
  · subst hsp
    rw [if_pos rfl, Vector.getElem_set_self, State.npc_toNat]
  · rw [if_neg hsp, Vector.getElem_set_ne _ _ (Ne.symm hsp)]

/-- Settles O16: the top entry is the one below `sp`. -/
theorem returnPopsAddress : Obligations.ReturnPopsAddress := by
  intro s
  refine ⟨fun j hj hdepth => ?nonempty, fun hempty => raisesOnly_of_raise (exec_ret_of_empty (by omega))⟩
  have hpos : 0 < s.sp.val := by omega
  exact ⟨_, exec_ret_of_nonempty hpos, top_eq_getElem hj hdepth hpos, Nat.sub_eq_of_eq_add hdepth, rfl, fun _ _ => rfl,
    keepsParts_of_setPc (s.top hpos) keepsParts_pop⟩

/-- Settles O17: the body leaves the pushed address in place, by induction on its nesting. -/
theorem wellNestedCallReturnsBehindIt : Obligations.WellNestedCallReturnsBehindIt := by
  intro s t nnn body _ hbody hrun
  obtain ⟨u, hpc, ⟨hsp, hlive⟩, hnil⟩ := runAll_call_body_ret (fun _ _ => sameLiveStack_of_wellNested hbody) hrun
  cases hnil
  exact ⟨(congrArg BitVec.toNat hpc).trans s.npc_toNat, hsp, hlive⟩

end Sys2Proof
end

section
/-! Memory transfer (43_index_memory.md R123 to R125, 20_memory.md section 4, 70_reset_and_hazards.md R211): what block
writes leave in memory and block reads put into registers. -/

namespace Sys2Proof

open Machine Claims

/-! ## Blocks that fit -/

theorem writeBlock_of_fits {m : Memory} {base : Nat} {bs : List Byte} (h : base + bs.length ≤ 0x1000) :
    writeBlock m base bs = .ok (Memory.setBytes m base bs) :=
  (writeBlock_eq m base bs).trans (if_neg (Nat.not_lt.mpr h))

theorem readBlock_of_fits {m : Memory} {base n : Nat} (h : base + n ≤ 0x1000) :
    readBlock m base n = .ok ((List.range n).map fun k => Memory.byteAt m (base + k)) :=
  (readBlock_eq m base n).trans (if_neg (Nat.not_lt.mpr h))

theorem byteAt_setBytes_inside (m : Memory) (base : Nat) {bs : List Byte} {k : Nat} (h : k < bs.length) :
    Memory.byteAt (Memory.setBytes m base bs) (base + k) = bs.getD k 0 := by
  rw [Memory.byteAt_setBytes, if_pos ⟨Nat.le_add_right _ _, Nat.add_lt_add_left h _⟩, Nat.add_sub_cancel_left]

theorem byteAt_setBytes_outside (m : Memory) (base : Nat) {bs : List Byte} {a : Nat}
    (h : a < base ∨ base + bs.length ≤ a) : Memory.byteAt (Memory.setBytes m base bs) a = Memory.byteAt m a := by
  rw [Memory.byteAt_setBytes, if_neg (by omega)]

/-! ## What the instructions do -/

section
variable {s : State} (x : Reg)

theorem exec_ldB_of_fits (h : dataBase s + 2 ≤ 0xFFF) : exec (.ldB x) s =
    .next (s.setMem (Memory.setBytes s.mem (dataBase s) (decimalDigits (s.getV x)))).advance :=
  orRaise_of_ok (writeBlock_of_fits (Nat.succ_le_succ h))

theorem exec_storeRegs_of_fits (h : dataBase s + x.val ≤ 0xFFF) : exec (.storeRegs x) s =
    .next (s.setMem (Memory.setBytes s.mem (dataBase s) (registersUpTo s x))).advance := by
  refine orRaise_of_ok (writeBlock_of_fits ?_)
  rw [registersUpTo_length]
  exact Nat.succ_le_succ h

/-- The bytes at `I` to `I + x`. -/
def loadedBytes (s : State) (x : Reg) : List Byte :=
  (List.range (x.val + 1)).map fun k => Memory.byteAt s.mem (dataBase s + k)

theorem exec_loadRegs_of_fits (h : dataBase s + x.val ≤ 0xFFF) : exec (.loadRegs x) s =
    .next (s.setFile (fillRegisters s.V 0 (loadedBytes s x))).advance :=
  orRaise_of_ok (readBlock_of_fits (Nat.succ_le_succ h))

theorem keepsParts_setMem (s : State) (m : Memory) : KeepsParts [.memory] s (s.setMem m) := by
  intro p hp
  cases p <;> simp_all [Part.same]

theorem keepsParts_setFile (s : State) (W : Vector Byte 16) : KeepsParts [] s (s.setFile W) := by
  intro p _
  cases p <;> simp [Part.same]

/-- An instruction that replaces memory by `m` and advances. -/
theorem completes_of_setMem {r : Result} {m : Memory} {effect : State → Prop} (hr : r = .next (s.setMem m).advance)
    (heffect : ∀ t : State, t.mem = m → effect t) : Completes r s [] [.memory] effect :=
  completes_of_advance hr rfl (fun _ _ => rfl) (keepsParts_setMem s m) (heffect _ rfl)

variable {x}

/-! ## The bytes stored and loaded -/

theorem byteAt_storedRegs {k : Reg} (hk : k ≤ x) :
    Memory.byteAt (Memory.setBytes s.mem (dataBase s) (registersUpTo s x)) (dataBase s + k.val) = s.getV k := by
  have hlength : k.val < (registersUpTo s x).length := by
    rw [registersUpTo_length]
    exact Nat.lt_succ_of_le hk
  rw [byteAt_setBytes_inside s.mem (dataBase s) hlength, registersUpTo_getD s x k hk]

theorem loadedRegs_getV (k : Reg) : (fillRegisters s.V 0 (loadedBytes s x))[k.val] =
    if k ≤ x then Memory.byteAt s.mem (dataBase s + k.val) else s.getV k := by
  have hlength : (loadedBytes s x).length = x.val + 1 := by simp [loadedBytes]
  rw [fillRegisters_getElem, hlength]
  by_cases hk : k ≤ x
  · have hlt : k.val < x.val + 1 := Nat.lt_succ_of_le hk
    simp [loadedBytes, hk, hlt]
  · have hlt : ¬ k.val < x.val + 1 := fun h => hk (Nat.le_of_lt_succ h)
    simp [hk, hlt, State.getV]

theorem decimalDigits_toNat (v : Byte) : (decimalDigits v).map BitVec.toNat =
    [v.toNat / 100, v.toNat / 10 % 10, v.toNat % 10] := by
  have hv : v.toNat < 256 := v.isLt
  simp only [decimalDigits, List.map_cons, List.map_nil, BitVec.toNat_ofNat, List.cons.injEq, and_true]
  omega

theorem byteAt_storedDigits_toNat {k : Nat} (hk : k < 3) :
    (Memory.byteAt (Memory.setBytes s.mem (dataBase s) (decimalDigits (s.getV x))) (dataBase s + k)).toNat =
      [reg s x / 100, reg s x / 10 % 10, reg s x % 10].getD k 0 := by
  rw [byteAt_setBytes_inside s.mem (dataBase s) hk, reg, ← decimalDigits_toNat]
  exact (List.getD_map (decimalDigits (s.getV x)) 0 BitVec.toNat).symm

end

/-! ## The statements of 43_index_memory.md on memory transfer -/

/-- Settles O27: the block of the three digits is written whole, or the write raises. -/
theorem bcdStoresThreeDigits : Obligations.BcdStoresThreeDigits := by
  intro s x
  refine ⟨encodes_of_encodeWord_eq rfl (encodeXK_eq_wordX 0xF x 0x33), fun hfits => ?fits,
    fun hout => raisesOnly_of_raise (exec_ldB_of_out x hout)⟩
  refine completes_of_setMem (exec_ldB_of_fits x hfits) fun t hm => ?_
  rw [hm]
  exact ⟨byteAt_storedDigits_toNat (k := 0) (by decide), byteAt_storedDigits_toNat (k := 1) (by decide),
    byteAt_storedDigits_toNat (k := 2) (by decide), fun a ha => byteAt_setBytes_outside s.mem (dataBase s) ha⟩

/-- Settles O28: the block of the registers is written whole, or the write raises. -/
theorem storeRegistersWritesBlock : Obligations.StoreRegistersWritesBlock := by
  intro s x
  refine ⟨encodes_of_encodeWord_eq rfl (encodeXK_eq_wordX 0xF x 0x55), fun hfits => ?fits,
    fun hout => raisesOnly_of_raise (exec_storeRegs_of_out x hout)⟩
  refine completes_of_setMem (exec_storeRegs_of_fits x hfits) fun t hm => ?_
  rw [hm]
  refine ⟨fun k hk => byteAt_storedRegs hk, fun a ha => byteAt_setBytes_outside s.mem (dataBase s) ?_⟩
  rwa [registersUpTo_length]

/-- Settles O29: the block is read whole before a register is written, or the read raises. -/
theorem loadRegistersReadsBlock : Obligations.LoadRegistersReadsBlock := by
  intro s x
  refine ⟨encodes_of_encodeWord_eq rfl (encodeXK_eq_wordX 0xF x 0x65), fun hfits => ?fits,
    fun hout => raisesOnly_of_raise (exec_loadRegs_of_out x hout)⟩
  exact ⟨_, exec_loadRegs_of_fits x hfits, loadedRegs_getV, s.npc_toNat, keepsParts_advance (keepsParts_setFile s _)⟩

/-- Settles O30: the load reads the addresses that the store has written. -/
theorem storeThenLoadRestoresRegisters : Obligations.StoreThenLoadRestoresRegisters := by
  intro s t u v x hfits hstore hmem hI hload k hk
  rw [exec_storeRegs_of_fits x hfits] at hstore
  cases hstore
  have hbase : dataBase u = dataBase s := congrArg BitVec.toNat hI
  rw [exec_loadRegs_of_fits x (hbase ▸ hfits)] at hload
  cases hload
  calc (fillRegisters u.V 0 (loadedBytes u x))[k.val]
      = Memory.byteAt u.mem (dataBase u + k.val) := (loadedRegs_getV k).trans (if_pos hk)
    _ = s.getV k := by
      rw [hmem, hbase]
      exact byteAt_storedRegs hk

/-- Settles O31: the next fetch reads the two addresses that the store has written first. -/
theorem storedCodeIsExecutedNext : Obligations.StoredCodeIsExecutedNext := by
  intro s x i hready hx hbase hfits hdecode
  have hstep : step s = exec (.storeRegs x) s :=
    step_of_nextInstrIs ⟨_, hready, decodeWord_encodeWord (.storeRegs x) rfl⟩
  obtain ⟨hrunning, -⟩ := hready
  rw [exec_storeRegs_of_fits x hfits] at hstep
  have hpc : s.npc.toNat = dataBase s := by
    rw [State.npc_toNat, hbase]
    omega
  refine ⟨_, hstep, hpc, ?_⟩
  have hlt : s.npc.toNat < 0xFFF := by omega
  have hnext := readyFor_of_lt (s := (s.setMem (Memory.setBytes s.mem (dataBase s) (registersUpTo s x))).advance)
    hrunning hlt
  have hbyte (k : Reg) (hk : k ≤ x) : Memory.byteAt (Memory.setBytes s.mem (dataBase s) (registersUpTo s x))
      (s.npc.toNat + k.val) = s.getV k := by
    rw [hpc]
    exact byteAt_storedRegs hk
  have hword := congrArg₂ wordOfBytes (hbyte 0 (Fin.zero_le x)) (hbyte 1 hx)
  exact step_of_nextInstrIs ⟨_, hnext, (congrArg decodeWord hword).trans hdecode⟩

/-! ## The statement of 70_reset_and_hazards.md on loading -/

/-- Settles O41: the copy is one block write from 0x200 over the reset memory, which keeps the canonical form. -/
theorem loadProgramCopiesOrRefuses : Obligations.LoadProgramCopiesOrRefuses := by
  intro rom s
  refine ⟨fun hfits => ?fits, loadProgram_of_too_large s⟩
  refine ⟨_, loadProgram_of_fits s hfits, rfl, wf_loaded hfits, fun j hj => ?inside, fun a ha =>
    byteAt_setBytes_outside [] 0x200 ha⟩
  have hbyte : Memory.byteAt (Memory.setBytes [] 0x200 rom) (0x200 + j) = rom.getD j 0 := byteAt_setBytes_inside [] _ hj
  show some (Memory.byteAt (Memory.setBytes [] 0x200 rom) (0x200 + j)) = rom[j]?
  rw [hbyte, List.getD_eq_getElem rom 0 hj, List.getElem?_eq_getElem hj]

end Sys2Proof
end

section
/-! Sprites (44_display.md sections 1 and 2): which pixels a draw flips and when it reports a collision. -/

namespace Sys2Proof

open Machine Claims

/-! ## The pixels under a sprite -/

section
variable {s u : State} {x y : Reg} {n q : Nat}

/-- Where a sprite lands depends on `I`, memory and the two coordinate registers alone. -/
theorem spriteCovers_congr (hI : u.I = s.I) (hm : u.mem = s.mem) (hx : u.getV x = s.getV x)
    (hy : u.getV y = s.getV y) : SpriteCovers u x y n q ↔ SpriteCovers s x y n q := by
  simp only [SpriteCovers, SpriteBit, dataBase, reg, hI, hm, hx, hy]

end

section
variable (s : State) (x y : Reg) {n : Nat} (q : Fin Config.fbPixels)

theorem spriteRows_getD {i : Nat} (hi : i < n) :
    (spriteRows s n).getD i 0 = Memory.byteAt s.mem (dataBase s + i) := by
  simp [spriteRows, hi]

/-- The drawing plan names exactly the pixels under a set bit. -/
theorem mem_spritePlan_iff_covers :
    (q, true) ∈ spritePlan (reg s x) (reg s y) (spriteRows s n) ↔ SpriteCovers s x y n q.val := by
  rw [mem_spritePlan, length_spriteRows, SpriteCovers]
  refine exists₂_congr fun i j => and_congr_right fun hi => and_congr_right fun _ => ?_
  rw [spriteRows_getD s hi, Fin.ext_iff]
  rfl

variable {s x y q}

theorem spriteDrawing_spec (hn : n ≤ 15) :
    (∀ q : Fin Config.fbPixels, (spriteDrawing s x y n).1[q.val] =
      (pixel s q ^^ decide ((q, true) ∈ spritePlan (reg s x) (reg s y) (spriteRows s n)))) ∧
    ((spriteDrawing s x y n).2 = true ↔
      ∃ q, (q, true) ∈ spritePlan (reg s x) (reg s y) (spriteRows s n) ∧ pixel s q = true) := by
  have hrows : (spriteRows s n).length ≤ 32 := by
    rw [length_spriteRows]
    omega
  exact drawSprite_spec s.fb (s.getV x) (s.getV y) (spriteRows s n) hrows

theorem spriteDrawing_flips (hn : n ≤ 15) (h : SpriteCovers s x y n q.val) :
    (spriteDrawing s x y n).1[q.val] = !pixel s q := by
  rw [(spriteDrawing_spec hn).1 q, decide_eq_true ((mem_spritePlan_iff_covers s x y q).mpr h), Bool.xor_true]

theorem spriteDrawing_keeps (hn : n ≤ 15) (h : ¬ SpriteCovers s x y n q.val) :
    (spriteDrawing s x y n).1[q.val] = pixel s q := by
  rw [(spriteDrawing_spec hn).1 q, decide_eq_false (mt (mem_spritePlan_iff_covers s x y q).mp h), Bool.xor_false]

theorem spriteDrawing_collides_iff (hn : n ≤ 15) :
    (spriteDrawing s x y n).2 = true ↔ ∃ q, SpriteCovers s x y n q.val ∧ pixel s q = true :=
  (spriteDrawing_spec hn).2.trans (exists_congr fun q => and_congr_left' (mem_spritePlan_iff_covers s x y q))

end

/-! ## What a draw does to the state -/

theorem flagByte_toNat (b : Bool) : (flagByte b).toNat = if b then 1 else 0 := by cases b <;> rfl

/-- The state after a draw of a sprite that fits. -/
def drawnState (s : State) (x y : Reg) (n : Nat) : State :=
  ((s.setFb (spriteDrawing s x y n).1).setV regF (flagByte (spriteDrawing s x y n).2)).advance

theorem reg_drawnState_regF (s : State) (x y : Reg) (n : Nat) :
    reg (drawnState s x y n) regF = if (spriteDrawing s x y n).2 then 1 else 0 := by
  rw [reg, drawnState, State.advance_getV, State.getV_setV_same, flagByte_toNat]

theorem reg_drawnState_regF_eq_one_iff (s : State) (x y : Reg) {n : Nat} (hn : n ≤ 15) :
    reg (drawnState s x y n) regF = 1 ↔ ∃ q, SpriteCovers s x y n q.val ∧ pixel s q = true := by
  rw [reg_drawnState_regF, ← spriteDrawing_collides_iff hn]
  simp

theorem keepsParts_drawn_screen (s : State) (f : Framebuffer) (v : Byte) :
    KeepsParts [.screen] s ((s.setFb f).setV regF v) := by
  intro p hp
  cases p <;> simp_all [Part.same]

/-- Drawing a sprite again, over what its first draw left, restores every pixel. -/
theorem fb_drawnState_twice {s u : State} {x y : Reg} {n : Nat} (hn : n ≤ 15) (hfb : u.fb = (drawnState s x y n).fb)
    (hcovers : ∀ q, SpriteCovers u x y n q ↔ SpriteCovers s x y n q) : (drawnState u x y n).fb = s.fb := by
  have hbetween (q : Fin Config.fbPixels) : pixel u q = (spriteDrawing s x y n).1[q.val] := by rw [pixel, hfb]; rfl
  refine Vector.ext fun q hq => ?_
  show (spriteDrawing u x y n).1[(⟨q, hq⟩ : Fin Config.fbPixels).val] = pixel s ⟨q, hq⟩
  by_cases h : SpriteCovers s x y n q
  · rw [spriteDrawing_flips hn ((hcovers q).mpr h), hbetween, spriteDrawing_flips hn h, Bool.not_not]
  · rw [spriteDrawing_keeps hn (mt (hcovers q).mp h), hbetween, spriteDrawing_keeps hn h]

/-! ## The statements of 44_display.md on drawing -/

theorem encodeWord_drw (x y : Reg) {n : Nat} (hn : n ≤ 15) :
    encodeWord (.drw x y n) = wordXY (0xD000 + n) x y := by
  have hdigit : (BitVec.ofNat 4 n).toNat = n := Nat.mod_eq_of_lt (Nat.lt_succ_of_le hn)
  rw [encodeWord, encodeXYN_eq_wordXY, hdigit]
  rfl

/-- Settles O33: the plan of a sprite names its pixels once each, so each flips once and the flag looks at the screen
before. -/
theorem drawFlipsCoveredPixels : Obligations.DrawFlipsCoveredPixels := by
  intro s x y n hn hfit
  refine ⟨encodes_of_encodeWord_eq (decide_eq_true hn) (encodeWord_drw x y hn), ?_⟩
  refine completes_of_advance (exec_drw_of_fits x y hfit) rfl (keepsRegs_setV (s.setFb _) regF _)
    (keepsParts_drawn_screen s _ _) ⟨fun q => spriteDrawing_flips hn, fun q => spriteDrawing_keeps hn, ?collision, ?none⟩
  case collision => exact (reg_drawnState_regF_eq_one_iff s x y hn).mpr
  case none =>
    intro hnone
    exact (reg_drawnState_regF s x y n).trans (if_neg (mt (spriteDrawing_collides_iff hn).mp hnone))

/-- Settles O34: both draws cover the same pixels, and one of them is set between the draws exactly when it was unset
before. -/
theorem drawTwiceRestoresScreen : Obligations.DrawTwiceRestoresScreen := by
  intro s t u v x y n hn hfit hfirst hfb hI hm hx hy hsecond
  have hcovers (q : Nat) : SpriteCovers u x y n q ↔ SpriteCovers s x y n q := spriteCovers_congr hI hm hx hy
  have hfit' : dataBase u + n ≤ 0x1000 := by rwa [dataBase, hI]
  obtain rfl : drawnState s x y n = t := Host.Outcome.next.inj ((exec_drw_of_fits x y hfit).symm.trans hfirst)
  obtain rfl : drawnState u x y n = v := Host.Outcome.next.inj ((exec_drw_of_fits x y hfit').symm.trans hsecond)
  refine ⟨fb_drawnState_twice hn hfb hcovers, ?_⟩
  rw [reg_drawnState_regF_eq_one_iff u x y hn]
  refine exists_congr fun q => ?_
  rw [hcovers q]
  refine and_congr_right fun hq => ?_
  have hflipped : pixel u q = !pixel s q := by
    rw [pixel, hfb]
    exact spriteDrawing_flips hn hq
  rw [hflipped, Bool.not_eq_true']

end Sys2Proof
end

section
/-! Arithmetic with a flag, the random byte, glyph addresses, the key instructions and the reset values (42_alu.md sections
3 and 4, 43_index_memory.md R122, 45_timer_key.md, 10_state.md R26). -/

namespace Sys2Proof

open Machine Claims

/-! ## What the instructions do -/

section
variable (s : State) (nn : Byte) (x y : Reg)

theorem exec_addReg : exec (.addReg x y) s =
    .next (s.writeFlagThenResult x (carryFlag (s.getV x) (s.getV y)) (s.getV x + s.getV y)).advance := rfl
theorem exec_subReg : exec (.subReg x y) s =
    .next (s.writeFlagThenResult x (noBorrowFlag (s.getV x) (s.getV y)) (s.getV x - s.getV y)).advance := rfl
theorem exec_subn : exec (.subn x y) s =
    .next (s.writeFlagThenResult x (noBorrowFlag (s.getV y) (s.getV x)) (s.getV y - s.getV x)).advance := rfl
theorem exec_shr : exec (.shr x y) s =
    .next (s.writeFlagThenResult x (rightOutFlag (s.getV x)) (s.getV x >>> 1)).advance := rfl
theorem exec_shl : exec (.shl x y) s =
    .next (s.writeFlagThenResult x (leftOutFlag (s.getV x)) (s.getV x <<< 1)).advance := rfl
theorem exec_rnd : exec (.rnd x nn) s = .next ((s.setV x (s.rand &&& nn)).drawn).advance := rfl
theorem exec_ldF : exec (.ldF x) s = .next (s.setI (glyphAddress (s.getV x))).advance := rfl
theorem exec_skp : exec (.skp x) s = .next (s.skipIf (pressed s.key (s.getV x))) := rfl
theorem exec_sknp : exec (.sknp x) s = .next (s.skipIf (!pressed s.key (s.getV x))) := rfl
theorem exec_ldVxK : exec (.ldVxK x) s = .next (s.setWait (some x)).advance := rfl

end

/-! ## Flags and results as numbers -/

section
variable (a b : Byte)

theorem carryFlag_toNat : (carryFlag a b).toNat = if a.toNat + b.toNat > 255 then 1 else 0 := by
  simp [carryFlag, flagByte_toNat]

theorem noBorrowFlag_toNat : (noBorrowFlag a b).toNat = if a.toNat ≥ b.toNat then 1 else 0 := by
  simp [noBorrowFlag, flagByte_toNat]

theorem rightOutFlag_toNat : (rightOutFlag a).toNat = a.toNat % 2 := by
  rw [rightOutFlag, BitVec.toNat_and]
  exact Nat.and_one_is_mod _

theorem leftOutFlag_toNat : (leftOutFlag a).toNat = a.toNat / 128 := by
  have ha : a.toNat < 256 := a.isLt
  have hbit : leftOutFlag a = a >>> 7 &&& 1#8 := BitVec.ushiftRight_and_distrib a 0x80#8 7
  rw [hbit, BitVec.toNat_and, BitVec.toNat_ushiftRight, Nat.shiftRight_eq_div_pow]
  exact (Nat.and_one_is_mod _).trans (by omega)

theorem sub_toNat : (a - b).toNat = (a.toNat + 256 - b.toNat) % 256 := by
  have hb : b.toNat < 256 := b.isLt
  rw [BitVec.toNat_sub]
  omega

theorem shiftRight_toNat : (a >>> 1).toNat = a.toNat / 2 := by
  rw [BitVec.toNat_ushiftRight, Nat.shiftRight_eq_div_pow]

theorem shiftLeft_toNat : (a <<< 1).toNat = a.toNat * 2 % 256 := by
  rw [BitVec.toNat_shiftLeft, Nat.shiftLeft_eq]

theorem glyphAddress_toNat : (glyphAddress a).toNat = a.toNat * 5 := by
  have ha : a.toNat < 256 := a.isLt
  have hmod : (glyphAddress a).toNat = (0 + a.toNat * 5) % 4096 := BitVec.toNat_ofNat _ _
  omega

end

/-! ## Writes of flag and result -/

section
variable {r : Result} {s : State} {x : Reg} {effect : State → Prop}

theorem keepsParts_writeFlagThenResult (f v : Byte) : KeepsParts [] s (s.writeFlagThenResult x f v) := by
  intro p _
  cases p <;> simp [Part.same]

theorem keepsRegs_writeFlagThenResult (f v : Byte) : KeepsRegs [x, regF] s (s.writeFlagThenResult x f v) := by
  intro z hz
  obtain ⟨hx, hF⟩ : z ≠ x ∧ z ≠ regF := by simpa using hz
  rw [State.writeFlagThenResult_getV, if_neg hx, if_neg hF]

/-- An instruction that writes a flag and then a result, and advances, completes with whatever the result in `V[x]` and
the flag in another `VF` give (42_alu.md R112). -/
theorem completes_of_writeFlag {f v : Byte} (hr : r = .next (s.writeFlagThenResult x f v).advance)
    (heffect : ∀ t : State, t.getV x = v → (x ≠ regF → t.getV regF = f) → effect t) :
    Completes r s [x, regF] [] effect := by
  refine completes_of_advance hr rfl (keepsRegs_writeFlagThenResult f v) (keepsParts_writeFlagThenResult f v)
    (heffect _ ?result fun hx => ?flag)
  case result => rw [State.advance_getV, State.writeFlagThenResult_getV, if_pos rfl]
  case flag => rw [State.advance_getV, State.writeFlagThenResult_getV, if_neg hx.symm, if_pos rfl]

theorem keepsParts_drawn (s : State) (x : Reg) (v : Byte) : KeepsParts [.random] s (s.setV x v).drawn := by
  intro p hp
  cases p <;> simp_all [Part.same]

/-- The random source supplies `b`: it goes under the mask into `V[x]` and one byte is used up. -/
theorem completes_rnd {nn b : Byte} {rest : List Byte} (hrand : s.rand = b) (hrest : s.randomInput.tail = rest) :
    Completes (exec (.rnd x nn) s) s [x] [.random] fun t =>
      t.getV x = b &&& nn ∧ t.randomInput = rest ∧ t.draws = s.draws + 1 :=
  completes_of_advance (exec_rnd s nn x) rfl (keepsRegs_setV s x _) (keepsParts_drawn s x _)
    ⟨hrand ▸ s.getV_setV_same x _, hrest, rfl⟩

end

/-! ## Keys -/

theorem pressed_of_toNat_eq {key : Keys} {v : Byte} {k : Fin 16} (h : v.toNat = k.val) :
    pressed key v = key[k.val] := by
  have hlt : v.toNat < 16 := h ▸ k.isLt
  rw [pressed, dif_pos hlt]
  simp only [h]

theorem pressed_of_ge {key : Keys} {v : Byte} (h : v.toNat ≥ 16) : pressed key v = false :=
  dif_neg (Nat.not_lt.mpr h)

/-! ## The statements of 42_alu.md on arithmetic and the random byte -/

/-- Settles O21: `writeFlagThenResult` of the sum and its carry. -/
theorem addRegisterSetsCarry : Obligations.AddRegisterSetsCarry := by
  intro s x y
  refine ⟨encodes_of_encodeWord_eq rfl (encodeXYN_eq_wordXY 0x8 0x4 x y),
    completes_of_writeFlag (exec_addReg s x y) fun t hresult hflag => ⟨?sum, fun hx => ?carry⟩⟩
  case sum => rw [reg, hresult, BitVec.toNat_add]; rfl
  case carry => rw [reg, hflag hx, carryFlag_toNat]; rfl

/-- Settles O22: `writeFlagThenResult` of the difference and the comparison of its operands, in the two orders. -/
theorem subtractionsSetNoBorrow : Obligations.SubtractionsSetNoBorrow := by
  intro s x y
  refine ⟨⟨encodes_of_encodeWord_eq rfl (encodeXYN_eq_wordXY 0x8 0x5 x y), completes_of_writeFlag (exec_subReg s x y) ?_⟩,
    encodes_of_encodeWord_eq rfl (encodeXYN_eq_wordXY 0x8 0x7 x y), completes_of_writeFlag (exec_subn s x y) ?_⟩
  all_goals
    intro t hresult hflag
    exact ⟨(congrArg BitVec.toNat hresult).trans (sub_toNat _ _),
      fun hx => (congrArg BitVec.toNat (hflag hx)).trans (noBorrowFlag_toNat _ _)⟩

/-- Settles O23: `writeFlagThenResult` of the shifted byte and the bit shifted out. -/
theorem shiftsMoveBitIntoFlag : Obligations.ShiftsMoveBitIntoFlag := by
  intro s x y
  refine ⟨⟨encodes_of_encodeWord_eq rfl (encodeXYN_eq_wordXY 0x8 0x6 x y), completes_of_writeFlag (exec_shr s x y) ?shr⟩,
    encodes_of_encodeWord_eq rfl (encodeXYN_eq_wordXY 0x8 0xE x y), completes_of_writeFlag (exec_shl s x y) ?shl⟩
  case shr =>
    intro t hresult hflag
    exact ⟨(congrArg BitVec.toNat hresult).trans (shiftRight_toNat _),
      fun hx => (congrArg BitVec.toNat (hflag hx)).trans (rightOutFlag_toNat _)⟩
  case shl =>
    intro t hresult hflag
    exact ⟨(congrArg BitVec.toNat hresult).trans (shiftLeft_toNat _),
      fun hx => (congrArg BitVec.toNat (hflag hx)).trans (leftOutFlag_toNat _)⟩

/-- Settles O24: the byte is the next one of the host or the free value of this draw. -/
theorem randomByteUnderMask : Obligations.RandomByteUnderMask := by
  intro s x nn
  refine ⟨encodes_of_encodeWord_eq rfl (encodeXK_eq_wordXK 0xC x nn), fun rand rest hinput => ?_, fun hempty => ?_⟩
  · exact completes_rnd (by rw [State.rand, hinput]; rfl) (by rw [hinput]; rfl)
  · exact completes_rnd (by rw [State.rand, hempty]; rfl) (by rw [hempty]; rfl)

/-! ## The statements of 43_index_memory.md, 45_timer_key.md and 10_state.md -/

/-- Settles O26: five times a byte fits in 12 bits. -/
theorem glyphAddressIsFiveTimesRegister : Obligations.GlyphAddressIsFiveTimesRegister := fun s x =>
  ⟨encodes_of_encodeWord_eq rfl (encodeXK_eq_wordX 0xF x 0x29),
    completes_of_setI (exec_ldF s x) fun _ h => (congrArg BitVec.toNat h).trans (glyphAddress_toNat _)⟩

/-- Settles O35: both skips test `pressed`, which looks a key number up in the input vector. -/
theorem keySkipsFollowInputVector : Obligations.KeySkipsFollowInputVector := by
  intro s x
  refine ⟨encodes_of_encodeWord_eq rfl (encodeXK_eq_wordX 0xE x 0x9E),
    encodes_of_encodeWord_eq rfl (encodeXK_eq_wordX 0xE x 0xA1), fun k hk => ?key, fun hlarge => ?large⟩
  case key =>
    have hpressed : pressed s.key (s.getV x) = s.key[k.val] := pressed_of_toNat_eq hk
    refine ⟨onlyJumps_of_skipIf (exec_skp s x) (by rw [hpressed]), ?_⟩
    have hskip : OnlyJumps (exec (.sknp x) s) s (s.pc.toNat + if ¬ s.key[k.val] = true then 4 else 2) :=
      onlyJumps_of_skipIf (exec_sknp s x) (by simp [hpressed])
    rwa [ite_not] at hskip
  case large =>
    have hpressed : pressed s.key (s.getV x) = false := pressed_of_ge hlarge
    exact ⟨onlyJumps_of_skipIf (P := False) (exec_skp s x) (by simp [hpressed]),
      onlyJumps_of_skipIf (P := True) (exec_sknp s x) (by simp [hpressed])⟩

/-- Settles O38: the latch is the only part written. -/
theorem waitForKeySetsLatch : Obligations.WaitForKeySetsLatch := fun s x =>
  ⟨encodes_of_encodeWord_eq rfl (encodeXK_eq_wordX 0xF x 0x0A),
    completes_of_advance (exec_ldVxK s x) rfl (fun _ _ => rfl) (keepsParts_setWait s _) rfl⟩

/-- Settles O40: the reset memory lists no cell, so its addresses read as the 80 font bytes and 0 above them. -/
theorem resetLeavesListedValues : Obligations.ResetLeavesListedValues := by
  have hfont : Config.font.length = 80 := rfl
  refine ⟨fun x => ?regs, rfl, rfl, rfl, fun j hj => ?stack, rfl, rfl, fun a ha => ?font, fun a ha => ?zero,
    fun q => ?screen, fun k hk => ?keys, rfl, rfl⟩
  case regs => simp [reg, State.getV, State.reset]
  case stack => exact Vector.getElem_replicate hj
  case font =>
    show some (Config.font.getD a 0) = _
    rw [List.getD_eq_getElem _ _ (hfont ▸ ha), List.getElem?_eq_getElem]
  case zero => exact List.getD_eq_default _ _ (hfont ▸ ha)
  case screen => exact Vector.getElem_replicate q.isLt
  case keys => exact Vector.getElem_replicate hk

end Sys2Proof
end
